-- ==== Sys2Proof/Word.lean ====
section
/-! DEFINITION. The words the block moves: an 8-bit byte and a 32-bit pattern (00_scope.md section 6, R5). -/

namespace Sys2Proof

/-- A byte, 8 bits (R5 `BYTE_W`; the spec supplies it from general knowledge, G1; log 14). -/
abbrev Byte := BitVec 8

/-- A 32-bit pattern without interpretation (00_scope.md section 6). -/
abbrev Word32 := BitVec 32

end Sys2Proof
end

