-- ==== Sys2Proof/Config.lean ====
section
/-! DEFINITION. What is fixed for the hardware (R5), its output ports (R23), and the free values of the outputs the spec
leaves unspecified (U6) and of the undeclared bytes of `buf_in` (R23). The open parameters `LATENCY`, `DELAY_UNIT` and
`LEN_W` of R6 are read by no rule and are no constant here (log 15, log 16). -/

namespace Sys2Proof

/-- `REC_LEN`, "`3*4 + 4 + 1 = 17` bytes" (R5). -/
abbrev Config.recLen : Nat := 17

/-- `N_OPCODES`, the size of the closed opcode set (R5). -/
abbrev Config.nOpcodes : Nat := 10

/-- The output ports of R23, each at its width. They are a view of what a step delivered (`Machine.State.ports`), not
state of the block (R10, R11). -/
structure OutPorts where
  status   : BitVec 2
  tagOut   : BitVec 4
  byteOut  : Byte
  bufOut   : BitVec 136
  kpOut    : Word32
  kdOut    : Word32
  kiOut    : Word32
  delayOut : Word32
  feOut    : BitVec 1
  deriving DecidableEq, Repr, Inhabited

/-- The FREE VALUES of the outputs (U6, "any value"): what an output carries that the selected operation does not use,
that an error leaves without meaning, or that is read while no operation is presented (R22, R23, R98). It has no body,
so no proof can see a value of it. Its argument is the model's counter of steps (log 10). -/
opaque Config.freeOutputs : Nat → OutPorts

/-- The FREE VALUES of the input `buf_in`: "bytes at offsets not below `len_in` carry no meaning" (R23), so a byte the
caller has not declared may be anything. It has no body. Its argument is the model's counter of steps (log 10). -/
opaque Config.freeBufIn : Nat → BitVec 136

end Sys2Proof
end

