-- ==== Sys2Proof/Syntax.lean ====
section
/-! DEFINITION. The value types of 10_state.md section 2, the fourteen instructions of spec/opcode_table.json, and the
two forms in which the caller presents one: a `CMD8` byte (R51) or the input ports with their select (R59, R23). -/

namespace Sys2Proof

/-- The ten-member `Opcode` (R15). There is no eleventh member and no unknown one. -/
inductive Opcode where
  | setSampleCount
  | setAcqSampleRate
  | setInputSpeed
  | launchAq
  | setFeedbackSampleRate
  | setP
  | setI
  | setD
  | getStatus
  | setFeedback
  deriving DecidableEq, Repr

/-- The three errors, bare names that carry no value (R16, R110 to R113). An error is a result, never a trap (R114). -/
inductive Error where
  | unknownOpcode
  | truncatedBuffer
  | invalidBooleanEncoding
  deriving DecidableEq, Repr

/-- `StatusRecord`, five fields, 129 bits (R14). The gains are uninterpreted patterns (R94); the flag is one bit, so a
record with another flag cannot be formed. -/
structure StatusRecord where
  kp                : Word32
  kd                : Word32
  ki                : Word32
  feedbackLoopDelay : Word32
  feedbackEnabled   : Bool
  deriving DecidableEq, Repr

/-- One constructor per row of spec/opcode_table.json, in the table's order. The ten commands have no operand that the
block sees (R74 to R83). The four operations carry their operands, since "every operand arrives with its operation"
(R12); the bytes `DEC` reads are in the buffer the caller hands over (R20, `Machine.State.buf`). -/
inductive Instr where
  /-- `SET_SAMPLE_COUNT`, R74 -/
  | setSampleCount
  /-- `SET_ACQ_SAMPLE_RATE`, R75 -/
  | setAcqSampleRate
  /-- `SET_INPUT_SPEED`, R76 -/
  | setInputSpeed
  /-- `LAUNCH_AQ`, R77 -/
  | launchAq
  /-- `SET_FEEDBACK_SAMPLE_RATE`, R78 -/
  | setFeedbackSampleRate
  /-- `SET_P`, R79 -/
  | setP
  /-- `SET_I`, R80 -/
  | setI
  /-- `SET_D`, R81 -/
  | setD
  /-- `GET_STATUS`, R82 -/
  | getStatus
  /-- `SET_FEEDBACK`, R83 -/
  | setFeedback
  /-- `OPDEC`, R70: the byte to parse, port `cmd_byte` -/
  | opdec (b : Byte)
  /-- `OPENC`, R71: the opcode as its 4-bit tag, port `tag_in` -/
  | openc (tag : BitVec 4)
  /-- `ENC`, R90: the record, ports `kp_in` to `fe_in` -/
  | enc (r : StatusRecord)
  /-- `DEC`, R91: the number of bytes declared available, "any natural number" (port `len_in`; log 15) -/
  | dec (n : Nat)
  deriving DecidableEq, Repr

/-- The input ports of R23 but for `buf_in`, which carries bytes of the buffer the caller hands over and is a view of
the state (`Machine.State.bufIn`, computed for the count). `len_in` is a natural number (log 15). -/
structure InPorts where
  fn      : BitVec 2
  cmdByte : Byte
  tagIn   : BitVec 4
  kpIn    : Word32
  kdIn    : Word32
  kiIn    : Word32
  delayIn : Word32
  feIn    : BitVec 1
  lenIn   : Nat
  deriving DecidableEq, Repr

/-- The ports with select `fn` and every operand zero. -/
def InPorts.zero (fn : BitVec 2) : InPorts :=
  { fn := fn, cmdByte := 0, tagIn := 0, kpIn := 0, kdIn := 0, kiIn := 0, delayIn := 0, feIn := 0, lenIn := 0 }

/-- An instruction as the caller presents it. "The block is told which format it is looking at by the operation the
caller selects; it never has to tell them apart from the bits" (after R50), so the format is part of the presentation
(log 8). -/
inductive Encoded where
  /-- format `CMD8` (R51): the leading byte of a request frame, handed over by the dispatcher (R46, R85) -/
  | cmd8 (b : Byte)
  /-- format `FN2` (R59): the select and the operand ports -/
  | fn2 (p : InPorts)
  deriving DecidableEq, Repr

end Sys2Proof
end

