-- ==== Sys2Proof/WellFormed.lean ====
section
/-! DEFINITION. Which instructions lie in the domain of their operation. -/

namespace Sys2Proof

/-- The one check on an instruction as syntax: the tag of `OPENC` is an opcode's, 0x0 to 0x9 ("tag values 0xA to 0xF
are not opcodes", R15; R71). Every byte is an operand of `OPDEC` (R70), every record of `ENC` (R14), every count of
`DEC` (R91). -/
def Instr.wellFormed : Instr → Bool
  | .setSampleCount => true
  | .setAcqSampleRate => true
  | .setInputSpeed => true
  | .launchAq => true
  | .setFeedbackSampleRate => true
  | .setP => true
  | .setI => true
  | .setD => true
  | .getStatus => true
  | .setFeedback => true
  | .opdec _ => true
  | .openc tag => decide (tag ≤ 9#4)
  | .enc _ => true
  | .dec _ => true

/-- The instruction lies in its operation's domain. -/
abbrev Instr.WellFormed (i : Instr) : Prop := i.wellFormed = true

end Sys2Proof
end

