-- ==== Sys2Proof/Decode.lean ====
section
/-! DEFINITION. The opcode table (R56), the decoder of the two formats, the encoder, and the words of
spec/opcode_table.json as presentations. -/

namespace Sys2Proof

/-- The wire value of an opcode, the table of R15 and R56. -/
def wireValue : Opcode → Byte
  | .setSampleCount => 0x00#8
  | .setAcqSampleRate => 0x01#8
  | .setInputSpeed => 0x02#8
  | .launchAq => 0x03#8
  | .setFeedbackSampleRate => 0x04#8
  | .setP => 0x05#8
  | .setI => 0x06#8
  | .setD => 0x07#8
  | .getStatus => 0x08#8
  | .setFeedback => 0x09#8

/-- The members of `Opcode` in the order of R15. -/
def opcodes : List Opcode :=
  [.setSampleCount, .setAcqSampleRate, .setInputSpeed, .launchAq, .setFeedbackSampleRate,
   .setP, .setI, .setD, .getStatus, .setFeedback]

/-- The opcode whose wire value is the byte, where there is one (R56, R57: the whole byte counts). -/
def opcodeFromByte (b : Byte) : Option Opcode :=
  opcodes.find? fun op => wireValue op == b

/-- The 4-bit tag of an opcode on ports, "equal to its wire value" (R15). -/
def opcodeTag (op : Opcode) : BitVec 4 := (wireValue op).setWidth 4

/-- The opcode a tag stands for, none for 0xA to 0xF (R15). -/
def opcodeOfTag (tag : BitVec 4) : Option Opcode := opcodeFromByte (tag.setWidth 8)

/-- The command instruction of an opcode. -/
def commandOf : Opcode → Instr
  | .setSampleCount => .setSampleCount
  | .setAcqSampleRate => .setAcqSampleRate
  | .setInputSpeed => .setInputSpeed
  | .launchAq => .launchAq
  | .setFeedbackSampleRate => .setFeedbackSampleRate
  | .setP => .setP
  | .setI => .setI
  | .setD => .setD
  | .getStatus => .getStatus
  | .setFeedback => .setFeedback

/-- Why a presentation is no instruction. -/
inductive Rejection where
  /-- a `CMD8` byte 0x0A to 0xFF (R57): the block's result is the error UnknownOpcode, a next state and no stop -/
  | unknownOpcode
  /-- `OPENC` with tag 0xA to 0xF (R71, U8): outside the operation's domain, refused -/
  | notAnOpcode
  deriving DecidableEq, Repr

/-- What the decoder answers. -/
inductive Decoded where
  | instr (i : Instr)
  | rejected (why : Rejection)
  deriving DecidableEq, Repr

/-- The one-bit port value of a flag, and back (R14, R23). -/
def flagOfBit (v : BitVec 1) : Bool := v == 1#1

/-- The one-bit port value of a flag (R14, R23). -/
def bitOfFlag (f : Bool) : BitVec 1 := if f then 1#1 else 0#1

/-- The decoder of format `CMD8` (R56, R57). -/
def decodeCmd8 (b : Byte) : Decoded :=
  match opcodeFromByte b with
  | some op => .instr (commandOf op)
  | none => .rejected .unknownOpcode

/-- The decoder of format `FN2` (R59): `fn` selects the operation, and the ports the operation uses give its operands
(R23). All four values of `fn` are used. -/
def decodeFn2 (p : InPorts) : Decoded :=
  if p.fn = 0#2 then .instr (.opdec p.cmdByte)
  else if p.fn = 1#2 then
    if p.tagIn ≤ 9#4 then .instr (.openc p.tagIn) else .rejected .notAnOpcode
  else if p.fn = 2#2 then
    .instr (.enc { kp := p.kpIn, kd := p.kdIn, ki := p.kiIn, feedbackLoopDelay := p.delayIn,
                   feedbackEnabled := flagOfBit p.feIn })
  else .instr (.dec p.lenIn)

/-- The decoder, total on every presentation. -/
def decode : Encoded → Decoded
  | .cmd8 b => decodeCmd8 b
  | .fn2 p => decodeFn2 p

/-- The encoder: the `CMD8` byte of R56 for a command, the ports of R59 and R23 for an operation. Ports that the
operation does not use carry zero, and the decoder reads none of them. -/
def encode : Instr → Encoded
  | .setSampleCount => .cmd8 0x00#8
  | .setAcqSampleRate => .cmd8 0x01#8
  | .setInputSpeed => .cmd8 0x02#8
  | .launchAq => .cmd8 0x03#8
  | .setFeedbackSampleRate => .cmd8 0x04#8
  | .setP => .cmd8 0x05#8
  | .setI => .cmd8 0x06#8
  | .setD => .cmd8 0x07#8
  | .getStatus => .cmd8 0x08#8
  | .setFeedback => .cmd8 0x09#8
  | .opdec b => .fn2 { InPorts.zero 0#2 with cmdByte := b }
  | .openc tag => .fn2 { InPorts.zero 1#2 with tagIn := tag }
  | .enc r =>
    .fn2 { InPorts.zero 2#2 with
      kpIn := r.kp, kdIn := r.kd, kiIn := r.ki, delayIn := r.feedbackLoopDelay, feIn := bitOfFlag r.feedbackEnabled }
  | .dec n => .fn2 { InPorts.zero 3#2 with lenIn := n }

/-- The presentation a word of spec/opcode_table.json stands for: a row of fewer than 8 bits is `FN2`, its word the
select with every operand zero, and a row of 8 bits is `CMD8`. The two formats share the numbers 0 to 3, and only the
width tells them apart (log 9). -/
def tableWord (nbits w : Nat) : Encoded :=
  if nbits < 8 then .fn2 (InPorts.zero (BitVec.ofNat 2 w)) else .cmd8 (BitVec.ofNat 8 w)

/-- The instruction the decoder reads from a word of spec/opcode_table.json. -/
def decodeTableWord (nbits w : Nat) : Option Instr :=
  match decode (tableWord nbits w) with
  | .instr i => some i
  | .rejected _ => none

end Sys2Proof
end

