-- ==== Sys2Proof/Machine/State.lean ====
section
/-! DEFINITION. The state of the machine as plain data. The block itself keeps nothing between operations (R10 to R21),
so what stands here is the caller's side of the transaction (log 1): what it does next, the buffer it hands over, its
memory, and what the last step delivered to it. -/

namespace Sys2Proof.Machine

/-- The caller's memory: (address, byte) pairs, addresses strictly rising. An address that is not listed holds no byte
of the caller's, and reading it gives none (log 4). -/
abbrev Memory := List Host.Cell

/-- A buffer the caller hands to an operation (R20, R30): where it sits in the caller's memory, and how many bytes the
caller owns there. The block knows neither; `base` enters no result (R30, R40; log 3). -/
structure Handed where
  base : Nat
  size : Nat
  deriving DecidableEq, Repr

/-- What a step delivered to the caller: `Result T` of R16, success values apart, one error arm. It is a value the
caller receives (R11), and no operation reads it (R10). -/
inductive Delivered where
  /-- no operation was presented in this step: every output is unspecified (R22, U6) -/
  | nothing
  /-- `Ok` of `OPDEC` -/
  | opcode (op : Opcode)
  /-- the result of `OPENC` -/
  | byte (b : Byte)
  /-- the result of `ENC`: the bytes, offset 0 first -/
  | bytes (bs : List Byte)
  /-- `Ok` of `DEC` -/
  | record (r : StatusRecord)
  /-- `Err` -/
  | error (e : Error)
  deriving DecidableEq, Repr

/-- What the caller does next. -/
inductive CallerEvent where
  /-- it presents an operation and hands over a buffer (R7, R20) -/
  | present (e : Encoded) (buf : Handed)
  /-- it stores bytes into its own memory between operations; the block takes no part (R20, R24; log 22) -/
  | callerStores (a : Nat) (bs : List Byte)
  /-- it resets the block, perhaps in the middle of an operation, which then has no result (R130; log 12) -/
  | reset
  deriving DecidableEq, Repr

/-- The machine: the block, which has no state of its own, and the caller's side as data. -/
structure State where
  /-- what the caller does next, oldest first: operations are totally ordered in the order presented (R42, R43) -/
  pending   : List CallerEvent
  /-- the buffer handed to the operation at hand (R20) -/
  buf       : Handed
  /-- the caller's memory (R20) -/
  mem       : Memory
  /-- what the last step delivered (R11, R16) -/
  delivered : Delivered
  /-- the model's own counter of steps, the argument of the free values of unspecified outputs (U6) and of undeclared
  bytes of `buf_in` (R23; log 10) -/
  draw      : Nat
  deriving DecidableEq, Repr

/-- No fault: "No error is a trap" (R114), "every operation ends" (R139), and nothing in the block is stuck (part 1 of
93_implementation_defined.md). The three errors of R110 are results. Safe: an empty type stops nothing (log 20). -/
inductive Fault where
  deriving DecidableEq, Repr

/-- Why the model gives a case no meaning. -/
inductive Refusal where
  /-- raised by `exec` for an instruction without a meaning; no arm raises it. Safe: the model stops. -/
  | notModelled (mnemonic : String)
  /-- raised by `OPENC` on a tag 0xA to 0xF: "presenting one is outside the operation's domain and a model refuses it"
  (R71, U8). Safe: the model stops. -/
  | notAnOpcode
  /-- raised by `ENC` when the handed buffer has fewer than 17 bytes: "the spec gives that case no meaning and a model
  refuses it" (R41, U7). Safe: the model stops. -/
  | destinationTooShort
  /-- raised by `DEC` on a count of 17 or more that is larger than the bytes really present in the handed buffer: "the
  spec gives that no meaning" (R134, U9; log 6). Safe: the model stops. -/
  | countBeyondPresent
  deriving DecidableEq, Repr

/-- The machine right after reset. The block has nothing to reset (R22, R130), and nothing has been delivered, so every
output is unspecified (R22). The rest is the caller's, at values the model names: no event, no buffer handed, nothing in
memory (log 11), and the model's counter at 0 (log 10). -/
def State.reset : State :=
  { pending := [], buf := { base := 0, size := 0 }, mem := [], delivered := .nothing, draw := 0 }

end Sys2Proof.Machine
end

