-- ==== Sys2Proof/Machine/Operands.lean ====
section
/-! DEFINITION. Operand and result forms: the byte order (R31), the boolean byte (R55), the field order of the record
(R33), and the 136-bit value of the record (R52). -/

namespace Sys2Proof.Machine

/-- The four bytes of a word, least significant at the lowest offset (R31; log 14). -/
def leBytes (v : Word32) : List Byte :=
  [v.extractLsb' 0 8, v.extractLsb' 8 8, v.extractLsb' 16 8, v.extractLsb' 24 8]

/-- The word whose bytes at rising offsets are `b0` to `b3`: the concatenation of R31, `b3` most significant. -/
def leWord (b0 b1 b2 b3 : Byte) : Word32 := b3 ++ b2 ++ b1 ++ b0

/-- The byte of a flag (R55): 0x00 false, 0x01 true, and no other is produced. -/
def boolByte (f : Bool) : Byte := if f then 0x01#8 else 0x00#8

/-- The flag of a byte (R55): all 8 bits are compared, and 0x02 to 0xFF are reserved. -/
def boolOfByte (b : Byte) : Option Bool :=
  if b = 0x00#8 then some false else if b = 0x01#8 then some true else none

/-- The 17 bytes of a record in wire order kp, kd, ki, feedback_loop_delay, feedback_enabled (R33, R90; C1). -/
def encodeRecord (r : StatusRecord) : List Byte :=
  leBytes r.kp ++ leBytes r.kd ++ leBytes r.ki ++ leBytes r.feedbackLoopDelay ++ [boolByte r.feedbackEnabled]

/-- A byte sequence as one 136-bit value, byte `i` at bits `8i+7` to `8i` (R23, R52). -/
def packBytes (bs : List Byte) : BitVec 136 :=
  bs.foldr (fun b acc => (acc <<< 8) ||| b.setWidth 136) 0#136

end Sys2Proof.Machine
end

