-- ==== Sys2Proof/Machine/Ops.lean ====
section
/-! DEFINITION. The named operations: the caller's memory, the handed buffer, delivering a result, returning an error,
and what a step does that presents no operation. -/

namespace Sys2Proof.Machine

/-- The canonical form: addresses strictly rising. An unlisted address holds no byte, so no listed byte can equal what
one reads as. -/
abbrev Memory.wf (m : Memory) : Prop := m.Pairwise fun c d => c.1 < d.1

/-- The byte at an address, none where the caller has none. -/
def Memory.read : Memory → Nat → Option Byte
  | [], _ => none
  | (c, v) :: m, a => if c = a then some v else Memory.read m a

/-- Writes one byte and keeps the canonical form. -/
def Memory.write : Memory → Nat → Byte → Memory
  | [], a, b => [(a, b)]
  | (c, v) :: m, a, b =>
    if a < c then (a, b) :: (c, v) :: m
    else if a = c then (a, b) :: m
    else (c, v) :: Memory.write m a b

/-- Writes a byte sequence from an address upwards, nothing wraps (R13). -/
def Memory.writeBytes : Memory → Nat → List Byte → Memory
  | m, _, [] => m
  | m, a, b :: bs => Memory.writeBytes (Memory.write m a b) (a + 1) bs

/-- The byte at an offset of the handed buffer (R30: start of the buffer plus a constant). None where the buffer ends
or the caller has put no byte: such a byte is not really present (R134). -/
def State.handedByte (s : State) (k : Nat) : Option Byte :=
  if k < s.buf.size then s.mem.read (s.buf.base + k) else none

/-- Whether all of the `n` bytes that the caller declares available are really present (R134). -/
def State.declaredPresent (s : State) : Nat → Bool
  | 0 => true
  | n + 1 => (s.handedByte n).isSome && s.declaredPresent n

/-- `MemRead(B + o, 4)`, little-endian (R31, 00_scope.md section 6). -/
def State.handedWord (s : State) (o : Nat) : Option Word32 :=
  match s.handedByte o, s.handedByte (o + 1), s.handedByte (o + 2), s.handedByte (o + 3) with
  | some b0, some b1, some b2, some b3 => some (leWord b0 b1 b2 b3)
  | _, _, _, _ => none

/-- Places bytes in the handed buffer from offset 0 on (R33, R35). -/
def State.storeHanded (s : State) (bs : List Byte) : State :=
  { s with mem := s.mem.writeBytes s.buf.base bs }

/-- Ends a step with what it delivers. The counter of the free values advances with every step (log 10). -/
def State.deliver (s : State) (d : Delivered) : State :=
  { s with delivered := d, draw := s.draw + 1 }

/-- `raise E` of 00_scope.md section 6, the whole of "taking an exception" on this hardware: "the operation ends at once
with result `Err(E)`; it delivers no other result and writes nothing" (R114). There is nothing to return from (R117). -/
def State.raise (s : State) (e : Error) : State := s.deliver (.error e)

/-- The guarded parse of one byte, the body of `OPDEC` (R70). -/
def State.parseCommandByte (s : State) (b : Byte) : State :=
  match opcodeFromByte b with
  | some op => s.deliver (.opcode op)
  | none => s.raise .unknownOpcode

/-- A step in which no operation is presented: the block "is simply idle" (R120), the outputs are unspecified (R22, U6;
log 13). -/
def State.idle (s : State) : State := s.deliver .nothing

/-- Reset: "nothing to initialise" (R130), the caller's buffers are not touched (R22), every output is unspecified. -/
def State.resetBlock (s : State) : State := s.deliver .nothing

/-- The caller stores into its own memory; no operation is presented (R20; log 22). -/
def State.callerStore (s : State) (a : Nat) (bs : List Byte) : State :=
  { s with mem := s.mem.writeBytes a bs }.deliver .nothing

/-- The caller's next act is taken off its list. -/
def State.advance (s : State) (rest : List CallerEvent) : State := { s with pending := rest }

/-- The caller presents an operation with a buffer, the next act on its list: the buffer becomes the handed one. -/
def State.accept (s : State) (buf : Handed) (rest : List CallerEvent) : State :=
  { s with pending := rest, buf := buf }

/-- The caller presents a `CMD8` byte or ports, with a buffer, before everything else it was to do. -/
def State.presentFirst (s : State) (e : Encoded) (buf : Handed) : State :=
  { s with pending := .present e buf :: s.pending }

end Sys2Proof.Machine
end

