-- ==== Sys2Proof/Machine/CommandVocabulary.lean ====
section
/-! DEFINITION. The Command Vocabulary unit (40_command_vocabulary.md): the ten commands, `OPDEC` and `OPENC`. "What the
block does with a recognised command: it reports which of the ten it is, and nothing else" (R84), so a command's meaning
is the parse of its own byte (log 8). -/

namespace Sys2Proof.Machine

/-- `SET_SAMPLE_COUNT`, byte 0x00 (R74, R84). -/
def execSetSampleCount (s : State) : Host.Outcome State Fault Refusal := .next (s.parseCommandByte 0x00#8)

/-- `SET_ACQ_SAMPLE_RATE`, byte 0x01 (R75, R84). -/
def execSetAcqSampleRate (s : State) : Host.Outcome State Fault Refusal := .next (s.parseCommandByte 0x01#8)

/-- `SET_INPUT_SPEED`, byte 0x02 (R76, R84). -/
def execSetInputSpeed (s : State) : Host.Outcome State Fault Refusal := .next (s.parseCommandByte 0x02#8)

/-- `LAUNCH_AQ`, byte 0x03 (R77, R84). -/
def execLaunchAq (s : State) : Host.Outcome State Fault Refusal := .next (s.parseCommandByte 0x03#8)

/-- `SET_FEEDBACK_SAMPLE_RATE`, byte 0x04 (R78, R84). -/
def execSetFeedbackSampleRate (s : State) : Host.Outcome State Fault Refusal := .next (s.parseCommandByte 0x04#8)

/-- `SET_P`, byte 0x05 (R79, R84). -/
def execSetP (s : State) : Host.Outcome State Fault Refusal := .next (s.parseCommandByte 0x05#8)

/-- `SET_I`, byte 0x06 (R80, R84). -/
def execSetI (s : State) : Host.Outcome State Fault Refusal := .next (s.parseCommandByte 0x06#8)

/-- `SET_D`, byte 0x07 (R81, R84). -/
def execSetD (s : State) : Host.Outcome State Fault Refusal := .next (s.parseCommandByte 0x07#8)

/-- `GET_STATUS`, byte 0x08 (R82, R84): "decoding `GET_STATUS` does not by itself start an `ENC`". -/
def execGetStatus (s : State) : Host.Outcome State Fault Refusal := .next (s.parseCommandByte 0x08#8)

/-- `SET_FEEDBACK`, byte 0x09 (R83, R84). -/
def execSetFeedback (s : State) : Host.Outcome State Fault Refusal := .next (s.parseCommandByte 0x09#8)

/-- `OPDEC` (R70): total, ten bytes succeed and 246 return UnknownOpcode (R111). -/
def execOpdec (b : Byte) (s : State) : Host.Outcome State Fault Refusal := .next (s.parseCommandByte b)

/-- `OPENC` (R71): the wire value of the opcode; a tag that is no opcode is refused (U8). -/
def execOpenc (tag : BitVec 4) (s : State) : Host.Outcome State Fault Refusal :=
  match opcodeOfTag tag with
  | some op => .next (s.deliver (.byte (wireValue op)))
  | none => .refused .notAnOpcode

end Sys2Proof.Machine
end

