-- ==== Sys2Proof/Machine/StatusCodec.lean ====
section
/-! DEFINITION. The Status Codec unit (41_status_codec.md): `ENC` and `DEC`. -/

namespace Sys2Proof.Machine

/-- `ENC` (R90): delivers the 17 bytes of the record and places them at offsets 0 to 16 of the handed destination (R35,
R42). It has no error. A destination of fewer than 17 bytes is refused (R41, U7; log 5). -/
def execEnc (r : StatusRecord) (s : State) : Host.Outcome State Fault Refusal :=
  if s.buf.size < Config.recLen then .refused .destinationTooShort
  else .next ((s.storeHanded (encodeRecord r)).deliver (.bytes (encodeRecord r)))

/-- `DEC` once the five fields are read (R91): the boolean byte decides between a record and the error. -/
def State.decodeFields (s : State) (kp kd ki delay : Word32) (fe : Byte) : State :=
  match boolOfByte fe with
  | some f =>
    s.deliver (.record { kp := kp, kd := kd, ki := ki, feedbackLoopDelay := delay, feedbackEnabled := f })
  | none => s.raise .invalidBooleanEncoding

/-- `DEC` (R91): the count is tested first, and below 17 no byte is read (R36, R97). From 17 on a count larger than the
bytes really present is refused (R134, U9; log 6); else offsets 0 to 16 are read and nothing else (R39). The last arm is
never reached, since those 17 bytes are among the declared ones (`execDec_of_holds`). -/
def execDec (n : Nat) (s : State) : Host.Outcome State Fault Refusal :=
  if n < Config.recLen then .next (s.raise .truncatedBuffer)
  else if s.declaredPresent n = false then .refused .countBeyondPresent
  else
    match s.handedWord 0, s.handedWord 4, s.handedWord 8, s.handedWord 12, s.handedByte 16 with
    | some kp, some kd, some ki, some delay, some fe => .next (s.decodeFields kp kd ki delay fe)
    | _, _, _, _, _ => .refused .countBeyondPresent

end Sys2Proof.Machine
end

