-- ==== Sys2Proof/Machine/Dispatch.lean ====
section
/-! DEFINITION. One arm per instruction, each a direct call of its meaning. -/

namespace Sys2Proof.Machine

def exec (i : Instr) (s : State) : Host.Outcome State Fault Refusal :=
  match i with
  | .setSampleCount => Sys2Proof.Machine.execSetSampleCount s
  | .setAcqSampleRate => Sys2Proof.Machine.execSetAcqSampleRate s
  | .setInputSpeed => Sys2Proof.Machine.execSetInputSpeed s
  | .launchAq => Sys2Proof.Machine.execLaunchAq s
  | .setFeedbackSampleRate => Sys2Proof.Machine.execSetFeedbackSampleRate s
  | .setP => Sys2Proof.Machine.execSetP s
  | .setI => Sys2Proof.Machine.execSetI s
  | .setD => Sys2Proof.Machine.execSetD s
  | .getStatus => Sys2Proof.Machine.execGetStatus s
  | .setFeedback => Sys2Proof.Machine.execSetFeedback s
  | .opdec b => Sys2Proof.Machine.execOpdec b s
  | .openc tag => Sys2Proof.Machine.execOpenc tag s
  | .enc r => Sys2Proof.Machine.execEnc r s
  | .dec n => Sys2Proof.Machine.execDec n s

end Sys2Proof.Machine
end

