-- ==== Sys2Proof/Machine/Present.lean ====
section
/-! DEFINITION. Running what the caller presents. -/

namespace Sys2Proof.Machine

/-- The block performs what is presented. A `CMD8` byte that is no opcode is parsed like any other and returns
UnknownOpcode (R57, R111); an `OPENC` tag that is no opcode is refused (R71, U8). -/
def runEncoded (e : Encoded) (s : State) : Host.Outcome State Fault Refusal :=
  match decode e with
  | .instr i => exec i s
  | .rejected .unknownOpcode => .next (s.raise .unknownOpcode)
  | .rejected .notAnOpcode => .refused .notAnOpcode

/-- One act of the caller, the first of its list, or none (R7, R42, R43, R130). -/
def runNext (s : State) : Host.Outcome State Fault Refusal :=
  match s.pending with
  | [] => .next s.idle
  | .present e buf :: rest => runEncoded e (s.accept buf rest)
  | .callerStores a bs :: rest => .next ((s.advance rest).callerStore a bs)
  | .reset :: rest => .next (s.advance rest).resetBlock

end Sys2Proof.Machine
end

