-- ==== Sys2Proof/Machine/Step.lean ====
section
/-! DEFINITION. One step, and where the next instruction is put. -/

namespace Sys2Proof.Machine

/-- One step: one whole transaction of the block (R7), or an act of the caller that presents none. -/
def step (s : State) : Host.Outcome State Fault Refusal := runNext s

/-- The word of spec/opcode_table.json presented as the caller's next act, with a buffer of 17 bytes at address 0 handed
over (the block has no memory that it fetches from, R46; log 9, log 11). -/
def State.withFetchWord (s : State) (nbits w : Nat) : State :=
  s.presentFirst (tableWord nbits w) { base := 0, size := Config.recLen }

end Sys2Proof.Machine
end

