-- ==== Sys2Proof/Machine/Flags.lean ====
section
/-! DEFINITION. The block has no flags (R17). What tells success from error is the 2-bit `status` of the step's result
(R110), and the other output ports stand with it (R23). -/

namespace Sys2Proof.Machine

/-- The numeric code of an error on port `status` (R110, D10). -/
def errorCode : Error → BitVec 2
  | .unknownOpcode => 1#2
  | .truncatedBuffer => 2#2
  | .invalidBooleanEncoding => 3#2

/-- The output ports of R23 for a result, over free values for every output that carries no meaning (U6): 0 `OK` with
the operation's own outputs, or an error's code alone (R98, R110). -/
def drivePorts (free : OutPorts) : Delivered → OutPorts
  | .nothing => free
  | .opcode op => { free with status := 0#2, tagOut := opcodeTag op }
  | .byte b => { free with status := 0#2, byteOut := b }
  | .bytes bs => { free with status := 0#2, bufOut := packBytes bs }
  | .record r =>
    { free with
      status := 0#2, kpOut := r.kp, kdOut := r.kd, kiOut := r.ki, delayOut := r.feedbackLoopDelay,
      feOut := bitOfFlag r.feedbackEnabled }
  | .error e => { free with status := errorCode e }

/-- The output ports as the last step drove them. -/
def State.ports (s : State) : OutPorts := drivePorts (Config.freeOutputs s.draw) s.delivered

/-- Byte `k` of the input port `buf_in` for a declared count `n` (R23): the buffer's byte at an offset below the count, a
free value at any other, and at one where the caller has put no byte. -/
def State.bufInByte (s : State) (n k : Nat) : Byte :=
  let free : Byte := (Config.freeBufIn s.draw).extractLsb' (8 * k) 8
  if k < n then (s.handedByte k).getD free else free

/-- The input port `buf_in` (R23) for a declared count `n`: 136 bits whatever the count, byte `i` at bits `8i+7` to
`8i`. -/
def State.bufIn (s : State) (n : Nat) : BitVec 136 :=
  packBytes ((List.range Config.recLen).map (s.bufInByte n))

end Sys2Proof.Machine
end

