-- ==== Sys2Proof/Safety.lean ====
section
/-! DEFINITION. What a claim may assume of the caller, what a safe state is, and what of a state an operation can see. -/

namespace Sys2Proof.Machine

/-- The caller's count is truthful (R134): each of the `n` bytes it declares is really present in the handed buffer. What
makes a byte present, that the buffer reaches it and the caller has put one there, is the model's (log 4, log 6). -/
def State.CountTruthful (s : State) (n : Nat) : Prop := ∀ k, k < n → (s.handedByte k).isSome = true

/-- The handed buffer holds the bytes of `B` at all of the `n` declared offsets: the operands `B` and `n` of `DEC` (R91).
It may hold more. -/
def State.Holds (s : State) (n : Nat) (B : Nat → Byte) : Prop := ∀ k, k < n → s.handedByte k = some (B k)

/-- The caller keeps its part of the contract for an instruction: the operand is in the operation's domain (R71), the
destination of `ENC` has 17 bytes (R41), and a count of 17 or more given to `DEC` is truthful (R134). Below
17 `DEC` reads no byte and asks for nothing (R36, R112; log 6). -/
def CallerKeepsContract (i : Instr) (s : State) : Prop :=
  i.WellFormed ∧ (∀ r, i = .enc r → 17 ≤ s.buf.size) ∧
    (∀ n, i = .dec n → 17 ≤ n → s.CountTruthful n)

/-- What the block can produce: a byte of the ten (R71), 17 bytes whose last is 0x00 or 0x01 (R35, R55, R93). -/
def Delivered.Legal : Delivered → Prop
  | .nothing => True
  | .opcode _ => True
  | .byte b => b ≤ 0x09#8
  | .bytes bs => bs.length = 17 ∧ (bs[16]? = some 0x00#8 ∨ bs[16]? = some 0x01#8)
  | .record _ => True
  | .error _ => True

/-- The invariant: memory is in its canonical form, and what was delivered is something the block can produce. -/
structure State.Inv (s : State) : Prop where
  memCanonical : s.mem.wf
  legal : s.delivered.Legal

/-- Two states hand over buffers that no operation tells apart: the same bytes at offsets 0 to 16 (R36), bytes present at
the same offsets beyond, whatever their values (R39, R134), and both or neither with room for 17 bytes (R41). -/
def State.SameHanded (s t : State) : Prop :=
  (∀ k, k < 17 → s.handedByte k = t.handedByte k) ∧
    (∀ k, (s.handedByte k).isSome = (t.handedByte k).isSome) ∧ (s.buf.size < 17 ↔ t.buf.size < 17)

/-- An outcome up to everything but what was delivered: the same stop, or next states that delivered the same. -/
def SameResult : Host.Outcome State Fault Refusal → Host.Outcome State Fault Refusal → Prop
  | .next s, .next t => s.delivered = t.delivered
  | .fault _, .fault _ => True
  | .refused p, .refused q => p = q
  | _, _ => False

/-- Two presentations carry the same instruction bits: the same `CMD8` byte, or the same select and the same values on
the ports the selected operation uses (R23, R51, R59). -/
def SameUsedBits : Encoded → Encoded → Prop
  | .cmd8 b, .cmd8 c => b = c
  | .fn2 p, .fn2 q =>
    p.fn = q.fn ∧ (p.fn = 0#2 → p.cmdByte = q.cmdByte) ∧ (p.fn = 1#2 → p.tagIn = q.tagIn) ∧
      (p.fn = 2#2 → p.kpIn = q.kpIn ∧ p.kdIn = q.kdIn ∧ p.kiIn = q.kiIn ∧ p.delayIn = q.delayIn ∧ p.feIn = q.feIn) ∧
      (p.fn = 3#2 → p.lenIn = q.lenIn)
  | .cmd8 _, .fn2 _ => False
  | .fn2 _, .cmd8 _ => False

end Sys2Proof.Machine
end

