-- ==== Sys2Proof/Certificates/Slice0/Obligations.lean ====
section
/-! DEFINITION. The statements for the provers. A next state is written as the record it is, so that no statement rests
on a name of the model's for it; `draw` advancing and the buffer, queue and memory staying are part of each equation. -/

open Sys2Proof Sys2Proof.Machine

/-- A presentation that decodes to an instruction is run as `exec` of that instruction. That a step is one whole
operation is R7's, and that the operands come with the presentation and not from a fetch is R46's. The form of the step
is the model's choice: the caller's acts are a list of which a step takes the first (log 2, DESIGN CHOICE), and the
presentation brings the buffer that becomes the handed one (log 19, DESIGN CHOICE). -/
def Obligations.StepRunsTheDecodedInstruction : Prop :=
  ∀ (s : State) (e : Encoded) (buf : Handed) (rest : List CallerEvent) (i : Instr),
    s.pending = .present e buf :: rest → decode e = .instr i →
      step s = exec i { s with pending := rest, buf := buf }

/-- R57: a command byte outside 0x00 to 0x09, presented as `CMD8`, completes with the error UnknownOpcode and `status` 1.
The caller's list and the buffer that comes with the act are the model's choice (log 2, log 19), and so is a `CMD8` byte
as a presentation of its own (log 8). -/
def Obligations.UnknownCommandByteIsAnErrorResult : Prop :=
  ∀ (s : State) (b : Byte) (buf : Handed) (rest : List CallerEvent),
    s.pending = .present (.cmd8 b) buf :: rest → 0x0A#8 ≤ b →
      ∃ t, step s = .next t ∧ t.ports.status = 1#2 ∧
        t = { s with pending := rest, buf := buf, delivered := .error .unknownOpcode, draw := s.draw + 1 }

/-- R56, R59: words of both formats, written from the tables, decode to the instructions they stand for; 0x0A and 0x18
and the tag 0xA are rejected by name. That `fe_in` = 1 is true is log 23 (DEDUCED). -/
def Obligations.WordsOfTheTablesDecode : Prop :=
  decode (.cmd8 0x00#8) = .instr .setSampleCount ∧ decode (.cmd8 0x03#8) = .instr .launchAq ∧
  decode (.cmd8 0x08#8) = .instr .getStatus ∧ decode (.cmd8 0x09#8) = .instr .setFeedback ∧
  decode (.cmd8 0x0A#8) = .rejected .unknownOpcode ∧ decode (.cmd8 0x18#8) = .rejected .unknownOpcode ∧
  decode (.fn2 { InPorts.zero 0#2 with cmdByte := 0x88#8 }) = .instr (.opdec 0x88#8) ∧
  decode (.fn2 { InPorts.zero 1#2 with tagIn := 0x9#4 }) = .instr (.openc 0x9#4) ∧
  decode (.fn2 { InPorts.zero 1#2 with tagIn := 0xA#4 }) = .rejected .notAnOpcode ∧
  decode (.fn2 { InPorts.zero 2#2 with kdIn := 0x3E800000#32, feIn := 1#1 }) =
    .instr (.enc { kp := 0#32, kd := 0x3E800000#32, ki := 0#32, feedbackLoopDelay := 0#32, feedbackEnabled := true }) ∧
  decode (.fn2 { InPorts.zero 3#2 with lenIn := 19 }) = .instr (.dec 19)

/-- Every well-formed instruction, all fourteen rows with every operand, decodes from its encoding. -/
def Obligations.DecodeOfEncodeIsTheInstruction : Prop :=
  ∀ i : Instr, i.WellFormed → decode (encode i) = .instr i

/-- The decoder reads exactly the bits an operation uses: a presentation decodes to `i` if and only if `i` is
well-formed and the presentation carries the same select and operand bits as the encoding of `i`. So every presentation
has at most one meaning, no used bit is dropped and no unused port is read. -/
def Obligations.DecodeReadsExactlyTheUsedBits : Prop :=
  ∀ (e : Encoded) (i : Instr), decode e = .instr i ↔ i.WellFormed ∧ SameUsedBits e (encode i)

/-- R15, and R5 for their number: the table of ten opcodes and wire values, complete, without repeats, and the tags 0xA
to 0xF no opcodes. -/
def Obligations.OpcodeTableIsTheTenValues : Prop :=
  opcodes.map wireValue = [0x00#8, 0x01#8, 0x02#8, 0x03#8, 0x04#8, 0x05#8, 0x06#8, 0x07#8, 0x08#8, 0x09#8] ∧
  opcodes = [.setSampleCount, .setAcqSampleRate, .setInputSpeed, .launchAq, .setFeedbackSampleRate, .setP, .setI, .setD,
    .getStatus, .setFeedback] ∧
  opcodes.length = Config.nOpcodes ∧ (∀ op, op ∈ opcodes) ∧ (∀ op op', wireValue op = wireValue op' → op = op') ∧
  (∀ op, BitVec.setWidth 8 (opcodeTag op) = wireValue op) ∧ (∀ tag : BitVec 4, opcodeOfTag tag = none ↔ 0xA#4 ≤ tag)

/-- R74 to R83, R84: each command's `CMD8` byte decodes to it; run, it delivers its opcode and changes nothing else;
`OPDEC` of the byte does the same, and `OPENC` of the opcode's tag gives the byte back. -/
def Obligations.CommandsAreRecognisedAndGivenBack : Prop :=
  ∀ s : State,
    let completes (b : Byte) (tag : BitVec 4) (i : Instr) (op : Opcode) : Prop :=
      decode (.cmd8 b) = .instr i ∧
      exec i s = .next { s with delivered := .opcode op, draw := s.draw + 1 } ∧
      exec (.opdec b) s = .next { s with delivered := .opcode op, draw := s.draw + 1 } ∧
      exec (.openc tag) s = .next { s with delivered := .byte b, draw := s.draw + 1 }
    completes 0x00#8 0x0#4 .setSampleCount .setSampleCount ∧
    completes 0x01#8 0x1#4 .setAcqSampleRate .setAcqSampleRate ∧
    completes 0x02#8 0x2#4 .setInputSpeed .setInputSpeed ∧
    completes 0x03#8 0x3#4 .launchAq .launchAq ∧
    completes 0x04#8 0x4#4 .setFeedbackSampleRate .setFeedbackSampleRate ∧
    completes 0x05#8 0x5#4 .setP .setP ∧
    completes 0x06#8 0x6#4 .setI .setI ∧
    completes 0x07#8 0x7#4 .setD .setD ∧
    completes 0x08#8 0x8#4 .getStatus .getStatus ∧
    completes 0x09#8 0x9#4 .setFeedback .setFeedback

/-- R70: `OPDEC`, its select, its two results on every byte, and its port view. -/
def Obligations.OpdecParsesEveryByte : Prop :=
  ∀ (b : Byte) (s : State) (p : InPorts),
    (p.fn = 0#2 → decode (.fn2 p) = .instr (.opdec p.cmdByte)) ∧
    (b ≤ 0x09#8 → ∃ op t, wireValue op = b ∧ exec (.opdec b) s = .next t ∧
      t = { s with delivered := .opcode op, draw := s.draw + 1 } ∧
      t.ports.status = 0#2 ∧ t.ports.tagOut = b.extractLsb' 0 4) ∧
    (0x0A#8 ≤ b → ∃ t, exec (.opdec b) s = .next t ∧
      t = { s with delivered := .error .unknownOpcode, draw := s.draw + 1 } ∧ t.ports.status = 1#2)

/-- R111: `OPDEC` returns UnknownOpcode exactly on the 246 bytes 0x0A to 0xFF. -/
def Obligations.UnknownOpcodeExactlyOnTheOtherBytes : Prop :=
  (∀ (b : Byte) (s : State),
    (∃ t, exec (.opdec b) s = .next t ∧ t.delivered = .error .unknownOpcode) ↔ 0x0A#8 ≤ b) ∧
  ((List.range 256).filter fun n => decide (0x0A#8 ≤ BitVec.ofNat 8 n)).length = 246

/-- R71: `OPENC`, its select, the wire value and the port view on the ten tags, never an error; the other six tags are
refused, when run and when presented. -/
def Obligations.OpencGivesTheWireValue : Prop :=
  ∀ (tag : BitVec 4) (s : State) (p : InPorts),
    (p.fn = 1#2 → p.tagIn ≤ 0x9#4 → decode (.fn2 p) = .instr (.openc p.tagIn)) ∧
    (tag ≤ 0x9#4 → ∃ op t, opcodeTag op = tag ∧ exec (.openc tag) s = .next t ∧
      t = { s with delivered := .byte (wireValue op), draw := s.draw + 1 } ∧
      t.ports.status = 0#2 ∧ t.ports.byteOut = 0#4 ++ tag) ∧
    (0xA#4 ≤ tag → exec (.openc tag) s = .refused .notAnOpcode) ∧
    (∀ buf rest, s.pending = .present (.fn2 p) buf :: rest → p.fn = 1#2 → 0xA#4 ≤ p.tagIn →
      step s = .refused .notAnOpcode)

/-- R72: `OPDEC` and `OPENC` are inverse to each other on the ten opcodes, run one after the other from any state. The
half that starts from an opcode is one R72 gives as the spec's own inference ("derived: from rule R70, rule R71 and the
injectivity the source states"). -/
def Obligations.OpdecAndOpencAreInverse : Prop :=
  (∀ (b : Byte) (s : State), b ≤ 0x09#8 → ∃ op t u, exec (.opdec b) s = .next t ∧ t.delivered = .opcode op ∧
    exec (.openc (opcodeTag op)) t = .next u ∧ u.delivered = .byte b) ∧
  (∀ (op : Opcode) (s : State), ∃ b t u, exec (.openc (opcodeTag op)) s = .next t ∧ t.delivered = .byte b ∧
    b ≤ 0x09#8 ∧ exec (.opdec b) t = .next u ∧ u.delivered = .opcode op)

/-- R90: `ENC`, its select, the 17 bytes in wire order and byte order, delivered and placed, and its port view. The
equation for `buf_out` is one R90 gives as the spec's own inference ("derived: from 30_encoding.md rule R52"), on the
ports of R23, and that `fe_in` = 1 is true is log 23 (DEDUCED). That the bytes delivered are placed in the same step is
log 5 (DEDUCED). The destination has the room the caller owes it (R41). -/
def Obligations.EncDeliversTheSeventeenBytes : Prop :=
  ∀ (r : StatusRecord) (s : State) (p : InPorts),
    (p.fn = 2#2 → decode (.fn2 p) = .instr (.enc {
      kp := p.kpIn
      kd := p.kdIn
      ki := p.kiIn
      feedbackLoopDelay := p.delayIn
      feedbackEnabled := decide (p.feIn = 1#1) })) ∧
    (17 ≤ s.buf.size → ∃ (t : State) (fe : Byte) (bs : List Byte),
      fe = (if r.feedbackEnabled then 0x01#8 else 0x00#8) ∧
      bs =
        [r.kp.extractLsb' 0 8, r.kp.extractLsb' 8 8, r.kp.extractLsb' 16 8, r.kp.extractLsb' 24 8,
         r.kd.extractLsb' 0 8, r.kd.extractLsb' 8 8, r.kd.extractLsb' 16 8, r.kd.extractLsb' 24 8,
         r.ki.extractLsb' 0 8, r.ki.extractLsb' 8 8, r.ki.extractLsb' 16 8, r.ki.extractLsb' 24 8,
         r.feedbackLoopDelay.extractLsb' 0 8, r.feedbackLoopDelay.extractLsb' 8 8,
         r.feedbackLoopDelay.extractLsb' 16 8, r.feedbackLoopDelay.extractLsb' 24 8, fe] ∧
      exec (.enc r) s = .next t ∧
      t = { s with mem := s.mem.writeBytes s.buf.base bs, delivered := .bytes bs, draw := s.draw + 1 } ∧
      t.ports.status = 0#2 ∧ t.ports.bufOut = fe ++ r.feedbackLoopDelay ++ r.ki ++ r.kd ++ r.kp)

/-- R41, U7: a destination of fewer than 17 bytes is refused, whatever the record. -/
def Obligations.EncRefusesAShortDestination : Prop :=
  ∀ (r : StatusRecord) (s : State), s.buf.size < 17 → exec (.enc r) s = .refused .destinationTooShort

/-- R35, R93, the frame of `ENC`: it delivers exactly 17 bytes, places them at offsets 0 to 16 of the handed buffer, and
changes no other byte of memory, nor the caller's list, nor the handed buffer; what it delivers does not depend on any
buffer, memory or earlier result, since two states give the same bytes. -/
def Obligations.EncWritesOffsetsZeroToSixteenOnly : Prop :=
  ∀ (r : StatusRecord) (s t : State), exec (.enc r) s = .next t →
    (∃ bs : List Byte, t.delivered = .bytes bs ∧ bs.length = 17 ∧
      ∀ k, k < 17 → t.mem.read (s.buf.base + k) = bs[k]?) ∧
    (∀ a, a < s.buf.base ∨ s.buf.base + 17 ≤ a → t.mem.read a = s.mem.read a) ∧
    t.pending = s.pending ∧ t.buf = s.buf ∧ t.draw = s.draw + 1 ∧
    (∀ s' t' : State, exec (.enc r) s' = .next t' → t'.delivered = t.delivered)

/-- R31: little-endian both ways. A word placed at any address has bit slice `[8k+7:8k]` at byte `k`, and a word read
from the handed buffer is the concatenation of its bytes, the highest offset most significant. -/
def Obligations.MultiByteFieldsAreLittleEndian : Prop :=
  (∀ (m : Memory) (a : Nat) (v : Word32) (k : Nat), k < 4 →
    (m.writeBytes a (leBytes v)).read (a + k) = some (v.extractLsb' (8 * k) 8)) ∧
  (∀ (s : State) (o : Nat) (b0 b1 b2 b3 : Byte),
    s.handedByte o = some b0 → s.handedByte (o + 1) = some b1 → s.handedByte (o + 2) = some b2 →
    s.handedByte (o + 3) = some b3 → s.handedWord o = some (b3 ++ b2 ++ b1 ++ b0))

/-- R33: after `ENC` the five fields stand at their offsets in the handed buffer, and what stood at offset 17 and above
still does. -/
def Obligations.FieldMapOfTheEncodedRecord : Prop :=
  ∀ (r : StatusRecord) (s t : State), exec (.enc r) s = .next t →
    t.handedWord 0 = some r.kp ∧ t.handedWord 4 = some r.kd ∧ t.handedWord 8 = some r.ki ∧
    t.handedWord 12 = some r.feedbackLoopDelay ∧
    t.handedByte 16 = some (if r.feedbackEnabled then 0x01#8 else 0x00#8) ∧
    ∀ k, 17 ≤ k → t.handedByte k = s.handedByte k

/-- Byte `i` of 17 bytes stands at bits `8i+7` to `8i` of the 136-bit value, and the value of an encoded record is
`fe_byte, feedback_loop_delay, ki, kd, kp`, most significant first. R52 gives that value as the spec's own inference
from R31 and R33 ("derived: from 20_memory.md rules R31 and R33"). -/
def Obligations.StatusValueIsTheFieldsInOrder : Prop :=
  (∀ (bs : List Byte) (i : Nat), bs.length = 17 → i < 17 → bs[i]? = some ((packBytes bs).extractLsb' (8 * i) 8)) ∧
  (∀ r : StatusRecord, packBytes (encodeRecord r) =
    boolByte r.feedbackEnabled ++ r.feedbackLoopDelay ++ r.ki ++ r.kd ++ r.kp)

/-- R91: `DEC`, its select, and its three results in the order of the checks, which its pseudocode gives (R97 gives it
again as the spec's own inference). `B` and `n` are the operands of R91: the handed buffer holds the `n` declared bytes.
-/
def Obligations.DecReturnsARecordOrOneOfTwoErrors : Prop :=
  ∀ (n : Nat) (s : State) (B : Nat → Byte) (p : InPorts),
    (p.fn = 3#2 → decode (.fn2 p) = .instr (.dec p.lenIn)) ∧
    (n < 17 → ∃ t, exec (.dec n) s = .next t ∧
      t = { s with delivered := .error .truncatedBuffer, draw := s.draw + 1 } ∧ t.ports.status = 2#2) ∧
    (17 ≤ n → s.Holds n B → 0x02#8 ≤ B 16 → ∃ t, exec (.dec n) s = .next t ∧
      t = { s with delivered := .error .invalidBooleanEncoding, draw := s.draw + 1 } ∧ t.ports.status = 3#2) ∧
    (17 ≤ n → s.Holds n B → B 16 = 0x00#8 ∨ B 16 = 0x01#8 → ∃ t, exec (.dec n) s = .next t ∧
      t = { s with
        delivered := .record {
          kp := B 3 ++ B 2 ++ B 1 ++ B 0
          kd := B 7 ++ B 6 ++ B 5 ++ B 4
          ki := B 11 ++ B 10 ++ B 9 ++ B 8
          feedbackLoopDelay := B 15 ++ B 14 ++ B 13 ++ B 12
          feedbackEnabled := decide (B 16 = 0x01#8) }
        draw := s.draw + 1 } ∧ t.ports.status = 0#2 ∧ t.ports.kpOut = B 3 ++ B 2 ++ B 1 ++ B 0 ∧
      t.ports.kdOut = B 7 ++ B 6 ++ B 5 ++ B 4 ∧ t.ports.kiOut = B 11 ++ B 10 ++ B 9 ++ B 8 ∧
      t.ports.delayOut = B 15 ++ B 14 ++ B 13 ++ B 12 ∧ t.ports.feOut = (B 16).extractLsb' 0 1)

/-- The port view of R91: with 17 or more bytes truthfully declared, `status` and the five record outputs are the slices
of `buf_in`. -/
def Obligations.DecAgreesWithItsPortView : Prop :=
  ∀ (n : Nat) (s : State) (v : BitVec 136), 17 ≤ n → s.CountTruthful n → v = s.bufIn n →
    ∃ t, exec (.dec n) s = .next t ∧ t.mem = s.mem ∧
      (0x01#8 < v.extractLsb' 128 8 → t.ports.status = 3#2) ∧
      (v.extractLsb' 128 8 ≤ 0x01#8 → t.ports.status = 0#2 ∧ t.ports.kpOut = v.extractLsb' 0 32 ∧
        t.ports.kdOut = v.extractLsb' 32 32 ∧ t.ports.kiOut = v.extractLsb' 64 32 ∧
        t.ports.delayOut = v.extractLsb' 96 32 ∧ t.ports.feOut = v.extractLsb' 128 1)

/-- R23: `buf_in` at every count. Byte `k` of it is the handed buffer's byte where `k` is below the declared count, also
when fewer than 17 bytes are declared; where it is not, it is a free value, whatever it is (log 10), and where no byte is
present nothing is said. -/
def Obligations.BufInCarriesTheDeclaredBytes : Prop :=
  ∀ (s : State) (n k : Nat), k < 17 →
    (∀ b, k < n → s.handedByte k = some b → (s.bufIn n).extractLsb' (8 * k) 8 = b) ∧
    (n ≤ k → (s.bufIn n).extractLsb' (8 * k) 8 = (Config.freeBufIn s.draw).extractLsb' (8 * k) 8)

/-- R112: `DEC` returns TruncatedBuffer exactly when the count is 0 to 16, in every state. -/
def Obligations.TruncatedBufferExactlyBelowSeventeen : Prop :=
  ∀ (n : Nat) (s : State),
    (∃ t, exec (.dec n) s = .next t ∧ t.delivered = .error .truncatedBuffer) ↔ n ≤ 16

/-- R113: where the declared bytes are present, `DEC` returns InvalidBooleanEncoding exactly when the count is 17 or
more and byte 16 is 0x02 to 0xFF, 254 values. -/
def Obligations.InvalidBooleanExactlyOnReservedFlags : Prop :=
  (∀ (n : Nat) (s : State) (B : Nat → Byte), s.Holds n B →
    ((∃ t, exec (.dec n) s = .next t ∧ t.delivered = .error .invalidBooleanEncoding) ↔ 17 ≤ n ∧ 0x02#8 ≤ B 16)) ∧
  ((List.range 256).filter fun n => decide (0x02#8 ≤ BitVec.ofNat 8 n)).length = 254

/-- R55: the boolean byte, produced and recognised: `ENC` places 0x00 or 0x01 at offset 16, and `DEC` gives false for
0x00, true for 0x01, the error for the rest. -/
def Obligations.BooleanByteIsZeroOrOne : Prop :=
  (∀ (r : StatusRecord) (s t : State), exec (.enc r) s = .next t →
    t.handedByte 16 = some (if r.feedbackEnabled then 0x01#8 else 0x00#8)) ∧
  (∀ (n : Nat) (s : State) (B : Nat → Byte), 17 ≤ n → s.Holds n B → ∃ t, exec (.dec n) s = .next t ∧
    (B 16 = 0x00#8 → ∃ r, t.delivered = .record r ∧ r.feedbackEnabled = false) ∧
    (B 16 = 0x01#8 → ∃ r, t.delivered = .record r ∧ r.feedbackEnabled = true) ∧
    (0x02#8 ≤ B 16 → t.delivered = .error .invalidBooleanEncoding))

/-- R36, R39: below 17 `DEC` reads no byte; from 17 on its outcome under a truthful count is that of any other truthful
count of 17 or more on any buffer with the same bytes at offsets 0 to 16, so trailing bytes play no part; it writes no
buffer. -/
def Obligations.DecReadsOffsetsZeroToSixteenOnly : Prop :=
  (∀ (n : Nat) (s s' : State), n < 17 → SameResult (exec (.dec n) s) (exec (.dec n) s')) ∧
  (∀ (n n' : Nat) (s s' : State), 17 ≤ n → 17 ≤ n' → (∀ k, k < 17 → s.handedByte k = s'.handedByte k) →
    s.CountTruthful n → s'.CountTruthful n' → SameResult (exec (.dec n) s) (exec (.dec n') s')) ∧
  (∀ (n : Nat) (s t : State), exec (.dec n) s = .next t → t.mem = s.mem)

/-- R134, U9: a count of 17 or more that is larger than the bytes really present, so that some declared byte is not
there, is refused. That a byte inside the buffer which the caller has never written is not present is the model's choice
(log 4, DESIGN CHOICE), and that the refusal begins at 17, since below it no byte is read, is read from R36 and R112
(log 6, DEDUCED; U9's letter makes no such exception). -/
def Obligations.DecRefusesAnUntruthfulCount : Prop :=
  ∀ (n k : Nat) (s : State), 17 ≤ n → k < n → s.handedByte k = none → exec (.dec n) s = .refused .countBeyondPresent

/-- Round trip, bit for bit, for every record, from every state with room, with 17 bytes declared (R92) or any number of
trailing bytes that are present declared with them, and whatever else is in memory. The half with trailing bytes is one
R92 gives as the spec's own inference ("derived: from this rule and 20_memory.md rule R39"). -/
def Obligations.DecOfEncGivesTheRecordBack : Prop :=
  ∀ (r : StatusRecord) (n : Nat) (s : State), 17 ≤ s.buf.size → 17 ≤ n →
    (∀ k, 17 ≤ k → k < n → (s.handedByte k).isSome = true) →
    ∃ t u, exec (.enc r) s = .next t ∧ exec (.dec n) t = .next u ∧ u.delivered = .record r ∧ u.mem = t.mem

/-- R96, the converse of R92, which the spec gives as its own inference ("derived: from rule R90, rule R91 and
30_encoding.md rule R55"): where the handed buffer holds the declared bytes, 17 or more, and byte 16 is 0x00 or 0x01, `DEC`
gives a record, and `ENC` of that record delivers those very bytes and leaves memory, in its canonical form, as it was,
as data; and two records with the same bytes are the same record. -/
def Obligations.EncOfDecGivesTheBytesBack : Prop :=
  (∀ (n : Nat) (s : State) (B : Nat → Byte), s.mem.wf → 17 ≤ n → s.Holds n B → B 16 = 0x00#8 ∨ B 16 = 0x01#8 →
    ∃ t r u, exec (.dec n) s = .next t ∧ t.delivered = .record r ∧ exec (.enc r) t = .next u ∧
      u.delivered = .bytes ((List.range 17).map B) ∧ u.mem = s.mem) ∧
  (∀ (r r' : StatusRecord) (s t t' : State), exec (.enc r) s = .next t → exec (.enc r') s = .next t' →
    t.delivered = t'.delivered → r = r')

/-- R10, R20, R30, R40, R46: what an operation delivers, or why it is refused, is a function of the instruction and of
the bytes at offsets 0 to 16 of the handed buffer (and of whether the destination has room, R41, and the declared bytes
are present, R134). Earlier results, the values in the rest of memory, the caller's list and the place where the buffer
sits, at any address, play no part. `DEC` alone reads a buffer: for every other instruction the bytes play no part
either. -/
def Obligations.ResultDependsOnOperandsAlone : Prop :=
  (∀ (i : Instr) (s t : State), s.SameHanded t → SameResult (exec i s) (exec i t)) ∧
  (∀ (i : Instr) (s t : State), (∀ n, i ≠ .dec n) → (s.buf.size < 17 ↔ t.buf.size < 17) →
    SameResult (exec i s) (exec i t))

/-- R10, the other half: no operation changes the result of a later one, but through the bytes `ENC` places in the
caller's buffer. -/
def Obligations.NoOperationChangesALaterResult : Prop :=
  ∀ (i j : Instr) (s t : State), (∀ r, i ≠ .enc r) → exec i s = .next t → SameResult (exec j t) (exec j s)

/-- R116: an error leaves no trace. Nothing but what was delivered changes, and every next operation ends as it would
have ended had the failing one never been presented. -/
def Obligations.ErrorsLeaveNoTrace : Prop :=
  ∀ (i : Instr) (s t : State) (e : Error), exec i s = .next t → t.delivered = .error e →
    t = { s with delivered := .error e, draw := s.draw + 1 } ∧ ∀ j : Instr, SameResult (exec j t) (exec j s)

/-- R110, R16: which operation can return which error and for what cause, and the code on `status`: 0 for every success.
-/
def Obligations.EachErrorHasItsOperationAndCode : Prop :=
  ∀ (i : Instr) (s t : State), exec i s = .next t →
    (t.delivered = .error .unknownOpcode → (∃ b, i = .opdec b ∧ 0x0A#8 ≤ b) ∧ t.ports.status = 1#2) ∧
    (t.delivered = .error .truncatedBuffer → (∃ n, i = .dec n ∧ n < 17) ∧ t.ports.status = 2#2) ∧
    (t.delivered = .error .invalidBooleanEncoding →
      (∃ n fe, i = .dec n ∧ 17 ≤ n ∧ s.handedByte 16 = some fe ∧ 0x02#8 ≤ fe) ∧ t.ports.status = 3#2) ∧
    ((∀ e, t.delivered ≠ .error e) → t.ports.status = 0#2)

/-- R98, U6: on an error of `DEC` no record is delivered, and the five record outputs carry the model's free values,
whatever they are. -/
def Obligations.DecErrorLeavesRecordOutputsFree : Prop :=
  ∀ (n : Nat) (s t : State) (e : Error), exec (.dec n) s = .next t → t.delivered = .error e →
    (∀ r, t.delivered ≠ .record r) ∧ t.ports.status ≠ 0#2 ∧
    t.ports.kpOut = (Config.freeOutputs t.draw).kpOut ∧ t.ports.kdOut = (Config.freeOutputs t.draw).kdOut ∧
    t.ports.kiOut = (Config.freeOutputs t.draw).kiOut ∧ t.ports.delayOut = (Config.freeOutputs t.draw).delayOut ∧
    t.ports.feOut = (Config.freeOutputs t.draw).feOut

/-- The frame of the thirteen instructions that store nothing: the ten commands (`SET_SAMPLE_COUNT`,
`SET_ACQ_SAMPLE_RATE`, `SET_INPUT_SPEED`, `LAUNCH_AQ`, `SET_FEEDBACK_SAMPLE_RATE`, `SET_P`, `SET_I`, `SET_D`,
`GET_STATUS`, `SET_FEEDBACK`), `OPDEC`, `OPENC` and `DEC`. Every byte of memory, the caller's list and the handed
buffer are unchanged; only what was delivered and the model's counter change. -/
def Obligations.NonStoringInstructionsOnlyDeliver : Prop :=
  ∀ (i : Instr) (s t : State), (∀ r, i ≠ .enc r) → exec i s = .next t →
    (∀ a, t.mem.read a = s.mem.read a) ∧ t = { s with delivered := t.delivered, draw := s.draw + 1 }

/-- Every operation completes, and exactly when the caller keeps its contract: all fourteen constructors, the ten
commands, `OPDEC` on every byte, `OPENC` on the ten tags (R71), `ENC` with room (R41), `DEC` below 17 and with a
truthful count from 17 on (R134). The exact boundary for `DEC` is the model's: a byte is present if the buffer reaches
it and the caller has written it (log 4, DESIGN CHOICE), and below 17 the count is not held against the bytes present
(log 6, DEDUCED; U9's letter makes no such exception). -/
def Obligations.OperationsCompleteExactlyUnderContract : Prop :=
  ∀ (i : Instr) (s : State), (∃ t, exec i s = .next t) ↔ CallerKeepsContract i s

/-- R42: two steps. A `DEC` that follows an `ENC` on the same buffer delivers the record, from any state, with any
trailing bytes it declares present. The list both acts are taken from and the buffer each brings are the model's choice
(log 2, log 19). -/
def Obligations.DecAfterEncReadsWhatEncProduced : Prop :=
  ∀ (r : StatusRecord) (n : Nat) (s : State) (buf : Handed) (rest : List CallerEvent),
    s.pending = .present (encode (.enc r)) buf :: .present (encode (.dec n)) buf :: rest → 17 ≤ buf.size → 17 ≤ n →
    (∀ k, 17 ≤ k → k < n → k < buf.size ∧ (s.mem.read (buf.base + k)).isSome = true) →
      ∃ u, core.run 2 s = .next u ∧ u.delivered = .record r ∧ u.pending = rest

/-- R85: servicing `GET_STATUS`. The dispatcher presents the request's byte 0x08 and then `ENC` of the snapshot; the two
steps recognise the command without touching memory and then place 17 bytes in the response buffer, and any host whose
handed buffer holds those 17 bytes decodes the very snapshot. The list of acts and the buffers they bring are the
model's choice (log 2, log 19). -/
def Obligations.GetStatusResponseReachesTheHost : Prop :=
  ∀ (snapshot : StatusRecord) (s : State) (request response : Handed) (rest : List CallerEvent),
    s.pending = .present (.cmd8 0x08#8) request :: .present (encode (.enc snapshot)) response :: rest →
    17 ≤ response.size →
      ∃ t u bs, step s = .next t ∧ t.delivered = .opcode .getStatus ∧ t.mem = s.mem ∧
        step t = .next u ∧ u.delivered = .bytes bs ∧ bs.length = 17 ∧
        (∀ k, k < 17 → u.mem.read (response.base + k) = bs[k]?) ∧
        ∀ host : State, (∀ k, k < 17 → host.handedByte k = bs[k]?) →
          ∃ v, exec (.dec 17) host = .next v ∧ v.delivered = .record snapshot

/-- R91, D12: the count on a port of any width `w` of 5 bits or more. A caller whose truthful count the port can hold
presents it, a caller with more bytes presents any value of at least 17, and `DEC` ends the same. -/
def Obligations.AnyLengthPortOfFiveBitsServes : Prop :=
  ∀ (w n : Nat) (port : BitVec w) (s : State), 5 ≤ w → s.CountTruthful n → (n < 2 ^ w → port.toNat = n) →
    (2 ^ w ≤ n → 17 ≤ port.toNat) → SameResult (exec (.dec port.toNat) s) (exec (.dec n) s)

/-- R130, R22: reset changes nothing that an operation sees. It touches no buffer, leaves the outputs unspecified, and
every operation ends as it would have without it. -/
def Obligations.ResetChangesNothingAnOperationSees : Prop :=
  ∀ (s : State) (rest : List CallerEvent), s.pending = .reset :: rest →
    ∃ t, step s = .next t ∧ t = { s with pending := rest, delivered := .nothing, draw := s.draw + 1 } ∧
      t.ports = Config.freeOutputs t.draw ∧ ∀ i : Instr, SameResult (exec i t) (exec i s)

/-- R120, R22: with nothing presented the block is idle; the outputs are the model's free values, and memory stays. When
the caller stores into its own memory the bytes land there and nowhere else, and the block delivers nothing (the
caller's stores are the model's, log 22). -/
def Obligations.StepsWithoutAnOperation : Prop :=
  ∀ s : State,
    (s.pending = [] → ∃ t, step s = .next t ∧ t = { s with delivered := .nothing, draw := s.draw + 1 } ∧
      t.ports = Config.freeOutputs t.draw) ∧
    (∀ a bs rest, s.pending = .callerStores a bs :: rest → ∃ t, step s = .next t ∧ t.pending = rest ∧
      t.buf = s.buf ∧ t.delivered = .nothing ∧ (∀ k, k < bs.length → t.mem.read (a + k) = bs[k]?) ∧
      ∀ x, x < a ∨ a + bs.length ≤ x → t.mem.read x = s.mem.read x)

/-- R20, R34, R35, of the whole machine: a step changes a byte of memory only if it is one of the 17 that a presented
`ENC` places, or one that the caller itself stores. -/
def Obligations.OnlyEncAndTheCallerWriteMemory : Prop :=
  ∀ (s t : State) (a : Nat), step s = .next t → t.mem.read a ≠ s.mem.read a →
    (∃ e buf rest r, s.pending = .present e buf :: rest ∧ decode e = .instr (.enc r) ∧
      buf.base ≤ a ∧ a < buf.base + 17) ∨
    (∃ x bs rest, s.pending = .callerStores x bs :: rest ∧ x ≤ a ∧ a < x + bs.length)

/-- The reset state meets the invariant and has delivered nothing (R22); its empty queue and empty memory are the
model's choice (log 11, log 4). -/
def Obligations.ResetStateMeetsTheInvariant : Prop :=
  State.reset.Inv ∧ State.reset.delivered = .nothing ∧ State.reset.ports = Config.freeOutputs State.reset.draw ∧
    State.reset.mem = [] ∧ State.reset.pending = []

/-- Every step from every state that meets the invariant leads to one that meets it: memory keeps its canonical form,
every byte `OPENC` delivers is one of the ten (R71), and whatever `ENC` delivers is 17 bytes whose last is 0x00 or 0x01
(R55, R93). -/
def Obligations.EveryStepKeepsTheInvariant : Prop :=
  ∀ s t : State, s.Inv → step s = .next t → t.Inv
end

