-- ==== Sys2Proof/Laws/Codec.lean ====
section
/-! SUPPORT. The opcode table, the byte order and the boolean byte: one lemma for each function. -/

namespace Sys2Proof

/-- The table read forwards and backwards (R15, R56). -/
@[simp] theorem opcodeFromByte_wireValue (op : Opcode) : opcodeFromByte (wireValue op) = some op := by
  cases op <;> decide

theorem wireValue_le (op : Opcode) : wireValue op ≤ 0x09#8 := by
  cases op <;> decide

theorem wireValue_of_opcodeFromByte {b : Byte} {op : Opcode} (h : opcodeFromByte b = some op) : wireValue op = b := by
  simpa using List.find?_some h

theorem opcodeFromByte_eq_some {b : Byte} {op : Opcode} : opcodeFromByte b = some op ↔ wireValue op = b :=
  ⟨wireValue_of_opcodeFromByte, fun h => h ▸ opcodeFromByte_wireValue op⟩

theorem opcodeFromByte_eq_none {b : Byte} : opcodeFromByte b = none ↔ 0x09#8 < b := by
  revert b
  decide

theorem opcodeOfTag_eq_none {tag : BitVec 4} : opcodeOfTag tag = none ↔ 9#4 < tag := by
  revert tag
  decide

theorem opcodeOfTag_eq_some {tag : BitVec 4} {op : Opcode} : opcodeOfTag tag = some op ↔ opcodeTag op = tag := by
  revert tag
  cases op <;> decide

@[simp] theorem opcodeOfTag_opcodeTag (op : Opcode) : opcodeOfTag (opcodeTag op) = some op :=
  opcodeOfTag_eq_some.2 rfl

@[simp] theorem flagOfBit_bitOfFlag (f : Bool) : flagOfBit (bitOfFlag f) = f := by
  cases f <;> rfl

@[simp] theorem bitOfFlag_flagOfBit (v : BitVec 1) : bitOfFlag (flagOfBit v) = v := by
  revert v
  decide

namespace Machine

@[simp] theorem boolOfByte_boolByte (f : Bool) : boolOfByte (boolByte f) = some f := by
  cases f <;> rfl

theorem boolOfByte_eq_some {b : Byte} {f : Bool} : boolOfByte b = some f ↔ b = boolByte f := by
  revert b
  cases f <;> decide

theorem boolOfByte_eq_none {b : Byte} : boolOfByte b = none ↔ 0x02#8 ≤ b := by
  revert b
  decide

/-- The bits of a word put together from four bytes (R31). -/
theorem getLsbD_leWord (b0 b1 b2 b3 : Byte) (k : Nat) :
    (leWord b0 b1 b2 b3).getLsbD k =
      if k < 8 then b0.getLsbD k else if k - 8 < 8 then b1.getLsbD (k - 8)
      else if k - 8 - 8 < 8 then b2.getLsbD (k - 8 - 8) else b3.getLsbD (k - 8 - 8 - 8) := by
  unfold leWord
  rw [BitVec.getLsbD_append, BitVec.getLsbD_append, BitVec.getLsbD_append]

/-- A word put together from its own bytes (R31). -/
@[simp] theorem leWord_extract (v : Word32) :
    leWord (v.extractLsb' 0 8) (v.extractLsb' 8 8) (v.extractLsb' 16 8) (v.extractLsb' 24 8) = v := by
  refine BitVec.eq_of_getLsbD_eq fun k hk => ?_
  simp only [getLsbD_leWord, BitVec.getLsbD_extractLsb']
  split_ifs
  · simp [*]
  · simp [*, show 8 + (k - 8) = k by omega]
  · simp [*, show 16 + (k - 8 - 8) = k by omega]
  · simp [show k - 8 - 8 - 8 < 8 by omega, show 24 + (k - 8 - 8 - 8) = k by omega]

/-- The bytes of a word put together from four bytes (R31). -/
@[simp] theorem leBytes_leWord (b0 b1 b2 b3 : Byte) : leBytes (leWord b0 b1 b2 b3) = [b0, b1, b2, b3] := by
  have byteAt (o : Nat) {b : Byte} (h : ∀ k, k < 8 → (leWord b0 b1 b2 b3).getLsbD (o + k) = b.getLsbD k) :
      (leWord b0 b1 b2 b3).extractLsb' o 8 = b :=
    BitVec.eq_of_getLsbD_eq fun k hk => by simp [hk, h k hk]
  simp only [leBytes, List.cons.injEq, and_true]
  refine ⟨byteAt 0 fun k hk => ?_, byteAt 8 fun k hk => ?_, byteAt 16 fun k hk => ?_, byteAt 24 fun k hk => ?_⟩ <;>
    rw [getLsbD_leWord]
  · simp [hk]
  · simp [hk]
  · simp [hk, show 16 + k - 8 - 8 = k by omega, show ¬ (16 + k < 8) by omega, show ¬ (16 + k - 8 < 8) by omega]
  · simp [show 24 + k - 8 - 8 - 8 = k by omega, show ¬ (24 + k < 8) by omega, show ¬ (24 + k - 8 < 8) by omega,
      show ¬ (24 + k - 8 - 8 < 8) by omega]

@[simp] theorem leBytes_length (v : Word32) : (leBytes v).length = 4 := rfl

/-- Seventeen bytes for every record (R93). -/
@[simp] theorem encodeRecord_length (r : StatusRecord) : (encodeRecord r).length = 17 := rfl

/-- The encoding, byte by byte at its offset (R33, R90). -/
theorem encodeRecord_eq (r : StatusRecord) :
    encodeRecord r =
      [r.kp.extractLsb' 0 8, r.kp.extractLsb' 8 8, r.kp.extractLsb' 16 8, r.kp.extractLsb' 24 8,
       r.kd.extractLsb' 0 8, r.kd.extractLsb' 8 8, r.kd.extractLsb' 16 8, r.kd.extractLsb' 24 8,
       r.ki.extractLsb' 0 8, r.ki.extractLsb' 8 8, r.ki.extractLsb' 16 8, r.ki.extractLsb' 24 8,
       r.feedbackLoopDelay.extractLsb' 0 8, r.feedbackLoopDelay.extractLsb' 8 8,
       r.feedbackLoopDelay.extractLsb' 16 8, r.feedbackLoopDelay.extractLsb' 24 8,
       boolByte r.feedbackEnabled] := rfl

/-- Bit `j` of a packed sequence is bit `j mod 8` of byte `j div 8` (R23). -/
theorem packBytes_getLsbD (bs : List Byte) (j : Nat) (hj : j < 136) :
    (packBytes bs).getLsbD j = ((bs[j/8]?).getD 0#8).getLsbD (j % 8) := by
  induction bs generalizing j with
  | nil => simp [packBytes]
  | cons b bs ih =>
    have : packBytes (b :: bs) = (packBytes bs <<< 8) ||| b.setWidth 136 := rfl
    rw [this, BitVec.getLsbD_or, BitVec.getLsbD_shiftLeft, BitVec.getLsbD_setWidth]
    by_cases h8 : j < 8
    · have : j / 8 = 0 := by omega
      simp [h8, hj, this, Nat.mod_eq_of_lt h8]
    · have h1 : j / 8 = (j - 8) / 8 + 1 := by omega
      have h2 : (j - 8) % 8 = j % 8 := by omega
      rw [ih _ (by omega)]
      have h3 : b.getLsbD j = false := BitVec.getLsbD_of_ge _ _ (by omega)
      simp [h8, hj, h1, h2, h3]

/-- Bit `j` of a word is bit `j mod 8` of its byte `j div 8` (R31). -/
theorem leBytes_getD (v : Word32) (j : Nat) (hj : j < 32) :
   ((leBytes v)[j/8]?.getD 0#8).getLsbD (j % 8) = v.getLsbD j := by
  have hq : j / 8 < 4 := by omega
  have hd : j = 8 * (j/8) + j % 8 := by omega
  have hm : j % 8 < 8 := by omega
  generalize j % 8 = m at *
  generalize j / 8 = q at *
  subst hd
  unfold leBytes
  interval_cases q <;> simp [hm]

/-- A packed sequence that begins with a word's bytes has the word in its low bits (R52). -/
theorem packBytes_word (v : Word32) (bs : List Byte) :
    packBytes (leBytes v ++ bs) = (packBytes bs <<< 32) ||| v.setWidth 136 := by
  refine BitVec.eq_of_getLsbD_eq fun k hk => ?_
  rw [packBytes_getLsbD _ _ hk, BitVec.getLsbD_or, BitVec.getLsbD_shiftLeft, BitVec.getLsbD_setWidth]
  by_cases h : k < 32
  · rw [List.getElem?_append_left (by simp; omega), leBytes_getD _ _ h]; simp [h, hk]
  · rw [List.getElem?_append_right (by simp; omega), packBytes_getLsbD _ _ (by omega)]
    have : v.getLsbD k = false := BitVec.getLsbD_of_ge _ _ (by omega)
    have h1 : (k - 32) / 8 = k / 8 - 4 := by omega
    have h2 : (k - 32) % 8 = k % 8 := by omega
    simp [h, hk, this, h1, h2]

end Machine

end Sys2Proof
end

