-- ==== Sys2Proof/Laws/State.lean ====
section
/-! SUPPORT. Each operation on the state, field by field. -/

namespace Sys2Proof.Machine

variable (s : State) (d : Delivered) (e : Error)

@[simp] theorem deliver_pending : (s.deliver d).pending = s.pending := rfl
@[simp] theorem deliver_buf : (s.deliver d).buf = s.buf := rfl
@[simp] theorem deliver_mem : (s.deliver d).mem = s.mem := rfl
@[simp] theorem deliver_delivered : (s.deliver d).delivered = d := rfl
@[simp] theorem deliver_draw : (s.deliver d).draw = s.draw + 1 := rfl

@[simp] theorem raise_pending : (s.raise e).pending = s.pending := rfl
@[simp] theorem raise_buf : (s.raise e).buf = s.buf := rfl
@[simp] theorem raise_mem : (s.raise e).mem = s.mem := rfl
@[simp] theorem raise_delivered : (s.raise e).delivered = .error e := rfl
@[simp] theorem raise_draw : (s.raise e).draw = s.draw + 1 := rfl

@[simp] theorem idle_pending : s.idle.pending = s.pending := rfl
@[simp] theorem idle_buf : s.idle.buf = s.buf := rfl
@[simp] theorem idle_mem : s.idle.mem = s.mem := rfl
@[simp] theorem idle_delivered : s.idle.delivered = .nothing := rfl
@[simp] theorem idle_draw : s.idle.draw = s.draw + 1 := rfl

@[simp] theorem resetBlock_pending : s.resetBlock.pending = s.pending := rfl
@[simp] theorem resetBlock_buf : s.resetBlock.buf = s.buf := rfl
@[simp] theorem resetBlock_mem : s.resetBlock.mem = s.mem := rfl
@[simp] theorem resetBlock_delivered : s.resetBlock.delivered = .nothing := rfl
@[simp] theorem resetBlock_draw : s.resetBlock.draw = s.draw + 1 := rfl

variable (a : Nat) (bs : List Byte)

@[simp] theorem callerStore_pending : (s.callerStore a bs).pending = s.pending := rfl
@[simp] theorem callerStore_buf : (s.callerStore a bs).buf = s.buf := rfl
@[simp] theorem callerStore_mem : (s.callerStore a bs).mem = s.mem.writeBytes a bs := rfl
@[simp] theorem callerStore_delivered : (s.callerStore a bs).delivered = .nothing := rfl
@[simp] theorem callerStore_draw : (s.callerStore a bs).draw = s.draw + 1 := rfl

@[simp] theorem storeHanded_pending : (s.storeHanded bs).pending = s.pending := rfl
@[simp] theorem storeHanded_buf : (s.storeHanded bs).buf = s.buf := rfl
@[simp] theorem storeHanded_mem : (s.storeHanded bs).mem = s.mem.writeBytes s.buf.base bs := rfl
@[simp] theorem storeHanded_delivered : (s.storeHanded bs).delivered = s.delivered := rfl
@[simp] theorem storeHanded_draw : (s.storeHanded bs).draw = s.draw := rfl

/-- Bytes placed and a result delivered, as one record. Cite it rather than compare such states by unfolding, which
runs the placing of every byte. -/
theorem deliver_storeHanded :
    (s.storeHanded bs).deliver d =
      { s with mem := s.mem.writeBytes s.buf.base bs, delivered := d, draw := s.draw + 1 } := rfl

variable (rest : List CallerEvent) (buf : Handed) (enc : Encoded)

@[simp] theorem advance_pending : (s.advance rest).pending = rest := rfl
@[simp] theorem advance_buf : (s.advance rest).buf = s.buf := rfl
@[simp] theorem advance_mem : (s.advance rest).mem = s.mem := rfl
@[simp] theorem advance_delivered : (s.advance rest).delivered = s.delivered := rfl
@[simp] theorem advance_draw : (s.advance rest).draw = s.draw := rfl

@[simp] theorem accept_pending : (s.accept buf rest).pending = rest := rfl
@[simp] theorem accept_buf : (s.accept buf rest).buf = buf := rfl
@[simp] theorem accept_mem : (s.accept buf rest).mem = s.mem := rfl
@[simp] theorem accept_delivered : (s.accept buf rest).delivered = s.delivered := rfl
@[simp] theorem accept_draw : (s.accept buf rest).draw = s.draw := rfl

@[simp] theorem presentFirst_pending : (s.presentFirst enc buf).pending = .present enc buf :: s.pending := rfl
@[simp] theorem presentFirst_buf : (s.presentFirst enc buf).buf = s.buf := rfl
@[simp] theorem presentFirst_mem : (s.presentFirst enc buf).mem = s.mem := rfl
@[simp] theorem presentFirst_delivered : (s.presentFirst enc buf).delivered = s.delivered := rfl
@[simp] theorem presentFirst_draw : (s.presentFirst enc buf).draw = s.draw := rfl

variable (b : Byte) (kp kd ki delay : Word32)

/-- All that a parse can do: it delivers an opcode or the error. -/
theorem parseCommandByte_cases :
    (∃ op, opcodeFromByte b = some op ∧ s.parseCommandByte b = s.deliver (.opcode op)) ∨
      (opcodeFromByte b = none ∧ s.parseCommandByte b = s.raise .unknownOpcode) := by
  unfold State.parseCommandByte
  split
  · exact .inl ⟨_, ‹_›, rfl⟩
  · exact .inr ⟨‹_›, rfl⟩

/-- All that the end of `DEC` can do: it delivers the record or the error. -/
theorem decodeFields_cases :
    (∃ f, boolOfByte b = some f ∧ s.decodeFields kp kd ki delay b = s.deliver (.record ⟨kp, kd, ki, delay, f⟩)) ∨
      (boolOfByte b = none ∧ s.decodeFields kp kd ki delay b = s.raise .invalidBooleanEncoding) := by
  unfold State.decodeFields
  split
  · exact .inl ⟨_, ‹_›, rfl⟩
  · exact .inr ⟨‹_›, rfl⟩

@[simp] theorem parseCommandByte_pending : (s.parseCommandByte b).pending = s.pending := by
  obtain ⟨_, _, h⟩ | ⟨_, h⟩ := parseCommandByte_cases s b <;> simp [h]
@[simp] theorem parseCommandByte_buf : (s.parseCommandByte b).buf = s.buf := by
  obtain ⟨_, _, h⟩ | ⟨_, h⟩ := parseCommandByte_cases s b <;> simp [h]
@[simp] theorem parseCommandByte_mem : (s.parseCommandByte b).mem = s.mem := by
  obtain ⟨_, _, h⟩ | ⟨_, h⟩ := parseCommandByte_cases s b <;> simp [h]
@[simp] theorem parseCommandByte_draw : (s.parseCommandByte b).draw = s.draw + 1 := by
  obtain ⟨_, _, h⟩ | ⟨_, h⟩ := parseCommandByte_cases s b <;> simp [h]

@[simp] theorem decodeFields_pending : (s.decodeFields kp kd ki delay b).pending = s.pending := by
  obtain ⟨_, _, h⟩ | ⟨_, h⟩ := decodeFields_cases s b kp kd ki delay <;> simp [h]
@[simp] theorem decodeFields_buf : (s.decodeFields kp kd ki delay b).buf = s.buf := by
  obtain ⟨_, _, h⟩ | ⟨_, h⟩ := decodeFields_cases s b kp kd ki delay <;> simp [h]
@[simp] theorem decodeFields_mem : (s.decodeFields kp kd ki delay b).mem = s.mem := by
  obtain ⟨_, _, h⟩ | ⟨_, h⟩ := decodeFields_cases s b kp kd ki delay <;> simp [h]
@[simp] theorem decodeFields_draw : (s.decodeFields kp kd ki delay b).draw = s.draw + 1 := by
  obtain ⟨_, _, h⟩ | ⟨_, h⟩ := decodeFields_cases s b kp kd ki delay <;> simp [h]

end Sys2Proof.Machine
end

