-- ==== Sys2Proof/Laws/Ops.lean ====
section
/-! SUPPORT. Reading and storing the handed buffer. -/

namespace Sys2Proof.Machine

/-- Reading a byte of the handed buffer depends on memory and the buffer alone. -/
theorem handedByte_congr {s t : State} (hm : s.mem = t.mem) (hb : s.buf = t.buf) (k : Nat) :
    s.handedByte k = t.handedByte k := by
  simp only [State.handedByte, hm, hb]

@[simp] theorem handedByte_deliver (s : State) (d : Delivered) (k : Nat) :
    (s.deliver d).handedByte k = s.handedByte k := rfl

@[simp] theorem handedByte_raise (s : State) (e : Error) (k : Nat) : (s.raise e).handedByte k = s.handedByte k := rfl

/-- A byte just placed in the handed buffer (R35, R42). -/
theorem handedByte_storeHanded {s : State} {bs : List Byte} {k : Nat} (hk : k < bs.length) (hs : k < s.buf.size) :
    (s.storeHanded bs).handedByte k = bs[k]? := by
  simp [State.handedByte, hs, Memory.read_writeBytes_inside _ _ _ hk]

/-- A byte of the handed buffer beyond those placed. -/
theorem handedByte_storeHanded_beyond {s : State} {bs : List Byte} {k : Nat} (hk : bs.length ≤ k) :
    (s.storeHanded bs).handedByte k = s.handedByte k := by
  simp [State.handedByte, Memory.read_writeBytes_outside s.mem bs (.inr (by omega : s.buf.base + bs.length ≤ s.buf.base + k))]

/-- Placing bytes keeps the canonical form. -/
theorem storeHanded_wf {s : State} (bs : List Byte) (h : s.mem.wf) : (s.storeHanded bs).mem.wf := by
  rw [storeHanded_mem]
  exact Memory.writeBytes_wf _ _ h

/-- The caller's own store keeps the canonical form. -/
theorem callerStore_wf {s : State} (a : Nat) (bs : List Byte) (h : s.mem.wf) : (s.callerStore a bs).mem.wf := by
  rw [callerStore_mem]
  exact Memory.writeBytes_wf _ _ h

/-- A byte that is present lies inside the handed buffer. -/
theorem lt_size_of_handedByte {s : State} {k : Nat} {b : Byte} (h : s.handedByte k = some b) : k < s.buf.size := by
  unfold State.handedByte at h
  split at h
  · assumption
  · cases h

/-- No byte is present where the handed buffer has ended. -/
theorem handedByte_eq_none {s : State} {k : Nat} (h : s.buf.size ≤ k) : s.handedByte k = none :=
  if_neg (Nat.not_lt.2 h)

/-- A byte that is present, as the caller's memory has it. -/
theorem read_of_handedByte {s : State} {k : Nat} {b : Byte} (h : s.handedByte k = some b) :
    s.mem.read (s.buf.base + k) = some b := by
  unfold State.handedByte at h
  split at h
  · exact h
  · cases h

/-- All that a word read can be (R31): its four bytes are present and make it up. -/
theorem handedWord_eq_some {s : State} {o : Nat} {w : Word32} :
    s.handedWord o = some w ↔
      ∃ b0 b1 b2 b3, s.handedByte o = some b0 ∧ s.handedByte (o + 1) = some b1 ∧ s.handedByte (o + 2) = some b2 ∧
        s.handedByte (o + 3) = some b3 ∧ w = leWord b0 b1 b2 b3 := by
  unfold State.handedWord
  constructor
  · intro h
    split at h
    · exact ⟨_, _, _, _, ‹_›, ‹_›, ‹_›, ‹_›, (Option.some.inj h).symm⟩
    · cases h
  · rintro ⟨b0, b1, b2, b3, h0, h1, h2, h3, rfl⟩
    simp [h0, h1, h2, h3]

theorem handedWord_of_bytes {s : State} {o : Nat} {b0 b1 b2 b3 : Byte} (h0 : s.handedByte o = some b0)
    (h1 : s.handedByte (o + 1) = some b1) (h2 : s.handedByte (o + 2) = some b2) (h3 : s.handedByte (o + 3) = some b3) :
    s.handedWord o = some (leWord b0 b1 b2 b3) :=
  handedWord_eq_some.2 ⟨b0, b1, b2, b3, h0, h1, h2, h3, rfl⟩

/-- A word read depends on its four bytes alone. -/
theorem handedWord_congr {s t : State} {o : Nat} (h : ∀ k, o ≤ k → k < o + 4 → s.handedByte k = t.handedByte k) :
    s.handedWord o = t.handedWord o := by
  simp only [State.handedWord, h o (by omega) (by omega), h (o + 1) (by omega) (by omega),
    h (o + 2) (by omega) (by omega), h (o + 3) (by omega) (by omega)]

/-- The test of the count says that each declared byte is present (R134). -/
theorem declaredPresent_iff {s : State} {n : Nat} : s.declaredPresent n = true ↔ s.CountTruthful n := by
  induction n with
  | zero => exact ⟨fun _ k hk => absurd hk (Nat.not_lt_zero k), fun _ => rfl⟩
  | succ n ih =>
    rw [State.declaredPresent, Bool.and_eq_true, ih]
    constructor
    · rintro ⟨hn, h⟩ k hk
      rcases Nat.lt_succ_iff_lt_or_eq.1 hk with hk | rfl
      · exact h k hk
      · exact hn
    · exact fun h => ⟨h n (Nat.lt_succ_self n), fun k hk => h k (Nat.lt_succ_of_lt hk)⟩

/-- A buffer that holds the declared bytes makes the count truthful. -/
theorem truthful_of_holds {s : State} {n : Nat} {B : Nat → Byte} (h : s.Holds n B) : s.CountTruthful n := fun k hk => by
  rw [h k hk]
  rfl

/-- A truthful count is one whose bytes the buffer holds. -/
theorem holds_of_truthful {s : State} {n : Nat} (h : s.CountTruthful n) : ∃ B, s.Holds n B :=
  ⟨fun k => (s.handedByte k).getD 0, fun k hk => by
    obtain ⟨b, hb⟩ := Option.isSome_iff_exists.1 (h k hk)
    simp [hb]⟩

/-- A declared byte stands in `buf_in` as the buffer has it (R23). -/
theorem bufInByte_declared {s : State} {n k : Nat} {b : Byte} (hk : k < n) (h : s.handedByte k = some b) :
    s.bufInByte n k = b := by
  simp [State.bufInByte, hk, h]

/-- An undeclared byte of `buf_in` is free (R23). -/
theorem bufInByte_undeclared {s : State} {n k : Nat} (hk : n ≤ k) :
    s.bufInByte n k = (Config.freeBufIn s.draw).extractLsb' (8 * k) 8 := by
  simp [State.bufInByte, Nat.not_lt.2 hk]

end Sys2Proof.Machine
end

