-- ==== Sys2Proof/Laws/Exec.lean ====
section
/-! SUPPORT. What each meaning can do, once: one inversion lemma per meaning, and for `exec` and `step` as a whole. -/

namespace Sys2Proof.Machine

/-- Every command is the parse of its byte (R84). -/
theorem exec_commandOf (op : Opcode) (s : State) :
    exec (commandOf op) s = .next (s.parseCommandByte (wireValue op)) := by
  cases op <;> rfl

@[simp] theorem exec_opdec (b : Byte) (s : State) : exec (.opdec b) s = .next (s.parseCommandByte b) := rfl
@[simp] theorem exec_openc (tag : BitVec 4) (s : State) : exec (.openc tag) s = execOpenc tag s := rfl
@[simp] theorem exec_enc (r : StatusRecord) (s : State) : exec (.enc r) s = execEnc r s := rfl
@[simp] theorem exec_dec (n : Nat) (s : State) : exec (.dec n) s = execDec n s := rfl

@[simp] theorem parseCommandByte_wireValue (s : State) (op : Opcode) :
    s.parseCommandByte (wireValue op) = s.deliver (.opcode op) := by
  simp [State.parseCommandByte]

/-- `OPENC` (R71): the wire value, or a refusal of a tag that is no opcode. -/
theorem execOpenc_cases (tag : BitVec 4) (s : State) :
    (∃ op, opcodeOfTag tag = some op ∧ execOpenc tag s = .next (s.deliver (.byte (wireValue op)))) ∨
      (opcodeOfTag tag = none ∧ execOpenc tag s = .refused .notAnOpcode) := by
  unfold execOpenc
  split
  · exact .inl ⟨_, ‹_›, rfl⟩
  · exact .inr ⟨‹_›, rfl⟩

/-- `ENC` (R90, R41): the bytes delivered and placed, or a refusal of a short destination. -/
theorem execEnc_cases (r : StatusRecord) (s : State) :
    (17 ≤ s.buf.size ∧
        execEnc r s = .next ((s.storeHanded (encodeRecord r)).deliver (.bytes (encodeRecord r)))) ∨
      (s.buf.size < 17 ∧ execEnc r s = .refused .destinationTooShort) := by
  unfold execEnc
  split
  · exact .inr ⟨‹_›, rfl⟩
  · exact .inl ⟨Nat.not_lt.1 ‹_›, rfl⟩

/-- `DEC` on a buffer that holds the declared bytes, 17 or more (R91). -/
theorem execDec_of_holds {n : Nat} {s : State} {B : Nat → Byte} (hn : 17 ≤ n) (h : s.Holds n B) :
    execDec n s = .next (s.decodeFields (leWord (B 0) (B 1) (B 2) (B 3)) (leWord (B 4) (B 5) (B 6) (B 7))
      (leWord (B 8) (B 9) (B 10) (B 11)) (leWord (B 12) (B 13) (B 14) (B 15)) (B 16)) := by
  have hp : s.declaredPresent n = true := declaredPresent_iff.2 (truthful_of_holds h)
  have byte (k : Nat) (hk : k < 17) : s.handedByte k = some (B k) := h k (Nat.lt_of_lt_of_le hk hn)
  have word (o : Nat) (ho : o + 3 < 17) :
      s.handedWord o = some (leWord (B o) (B (o + 1)) (B (o + 2)) (B (o + 3))) :=
    handedWord_of_bytes (byte o (by omega)) (byte (o + 1) (by omega)) (byte (o + 2) (by omega)) (byte (o + 3) ho)
  rw [execDec, if_neg (Nat.not_lt.2 hn), if_neg (by rw [hp]; decide), word 0 (by decide), word 4 (by decide),
    word 8 (by decide), word 12 (by decide), byte 16 (by decide)]

/-- `DEC` (R91): truncated, or the five fields read and judged under a truthful count, or a refusal of a count that is
not (R134). -/
theorem execDec_cases (n : Nat) (s : State) :
    (n < 17 ∧ execDec n s = .next (s.raise .truncatedBuffer)) ∨
      (17 ≤ n ∧ s.CountTruthful n ∧ ∃ kp kd ki delay fe, s.handedWord 0 = some kp ∧ s.handedWord 4 = some kd ∧
        s.handedWord 8 = some ki ∧ s.handedWord 12 = some delay ∧ s.handedByte 16 = some fe ∧
        execDec n s = .next (s.decodeFields kp kd ki delay fe)) ∨
      (17 ≤ n ∧ ¬s.CountTruthful n ∧ execDec n s = .refused .countBeyondPresent) := by
  by_cases hn : n < 17
  · exact .inl ⟨hn, if_pos hn⟩
  · have hn := Nat.not_lt.1 hn
    by_cases hp : s.CountTruthful n
    · obtain ⟨B, h⟩ := holds_of_truthful hp
      have byte (k : Nat) (hk : k < 17) := h k (Nat.lt_of_lt_of_le hk hn)
      have word (o : Nat) (ho : o + 3 < 17) :=
        handedWord_of_bytes (byte o (by omega)) (byte (o + 1) (by omega)) (byte (o + 2) (by omega)) (byte (o + 3) ho)
      exact .inr (.inl ⟨hn, hp, _, _, _, _, _, word 0 (by decide), word 4 (by decide), word 8 (by decide),
        word 12 (by decide), byte 16 (by decide), execDec_of_holds hn h⟩)
    · have hf : s.declaredPresent n = false := by
        rw [← Bool.not_eq_true, declaredPresent_iff]
        exact hp
      exact .inr (.inr ⟨hn, hp, by rw [execDec, if_neg (Nat.not_lt.2 hn), if_pos hf]⟩)

/-- Every instruction that is not `ENC` and answers a next state only delivers a result. -/
theorem exec_next_of_not_enc {i : Instr} {s t : State} (hi : ∀ r, i ≠ .enc r) (h : exec i s = .next t) :
    ∃ d, t = s.deliver d := by
  have command (b : Byte) : ∃ d, s.parseCommandByte b = s.deliver d := by
    obtain ⟨op, -, h⟩ | ⟨-, h⟩ := parseCommandByte_cases s b
    · exact ⟨_, h⟩
    · exact ⟨_, h⟩
  cases i with
  | enc r => exact absurd rfl (hi r)
  | openc tag =>
    obtain ⟨op, -, h'⟩ | ⟨-, h'⟩ := execOpenc_cases tag s
    · rw [exec_openc, h'] at h
      exact ⟨_, (Host.Outcome.next.inj h).symm⟩
    · rw [exec_openc, h'] at h
      cases h
  | dec n =>
    obtain ⟨-, h'⟩ | ⟨-, -, kp, kd, ki, delay, fe, -, -, -, -, -, h'⟩ | ⟨-, -, h'⟩ := execDec_cases n s
    · rw [exec_dec, h'] at h
      exact ⟨_, (Host.Outcome.next.inj h).symm⟩
    · rw [exec_dec, h'] at h
      obtain ⟨f, -, hf⟩ | ⟨-, hf⟩ := decodeFields_cases s fe kp kd ki delay
      · exact ⟨_, (Host.Outcome.next.inj h).symm.trans hf⟩
      · exact ⟨_, (Host.Outcome.next.inj h).symm.trans hf⟩
    · rw [exec_dec, h'] at h
      cases h
  | _ => cases h; exact command _

/-- All that `ENC` does when it answers a next state. -/
theorem exec_enc_next {r : StatusRecord} {s t : State} (h : exec (.enc r) s = .next t) :
    17 ≤ s.buf.size ∧ t = (s.storeHanded (encodeRecord r)).deliver (.bytes (encodeRecord r)) := by
  obtain ⟨hs, h'⟩ | ⟨-, h'⟩ := execEnc_cases r s
  · rw [exec_enc, h'] at h
    exact ⟨hs, (Host.Outcome.next.inj h).symm⟩
  · rw [exec_enc, h'] at h
    cases h

/-- No instruction changes what the caller does next. -/
theorem exec_next_pending {i : Instr} {s t : State} (h : exec i s = .next t) : t.pending = s.pending := by
  by_cases hi : ∃ r, i = .enc r
  · obtain ⟨r, rfl⟩ := hi
    obtain ⟨-, rfl⟩ := exec_enc_next h
    simp
  · obtain ⟨d, rfl⟩ := exec_next_of_not_enc (fun r hr => hi ⟨r, hr⟩) h
    simp

/-- All that a step can do, by the caller's next act. -/
theorem step_idle {s : State} (h : s.pending = []) : step s = .next s.idle := by
  simp [step, runNext, h]

theorem step_present {s : State} {e : Encoded} {buf : Handed} {rest : List CallerEvent}
    (h : s.pending = .present e buf :: rest) : step s = runEncoded e (s.accept buf rest) := by
  simp [step, runNext, h]

theorem step_callerStores {s : State} {a : Nat} {bs : List Byte} {rest : List CallerEvent}
    (h : s.pending = .callerStores a bs :: rest) : step s = .next ((s.advance rest).callerStore a bs) := by
  simp [step, runNext, h]

theorem step_reset {s : State} {rest : List CallerEvent} (h : s.pending = .reset :: rest) :
    step s = .next (s.advance rest).resetBlock := by
  simp [step, runNext, h]

/-- Running a presentation is `exec` of what it decodes to, or one of the two rejections. -/
theorem runEncoded_cases (e : Encoded) (s : State) :
    (∃ i, decode e = .instr i ∧ runEncoded e s = exec i s) ∨
      (decode e = .rejected .unknownOpcode ∧ runEncoded e s = .next (s.raise .unknownOpcode)) ∨
      (decode e = .rejected .notAnOpcode ∧ runEncoded e s = .refused .notAnOpcode) := by
  unfold runEncoded
  split
  · exact .inl ⟨_, ‹_›, rfl⟩
  · exact .inr (.inl ⟨‹_›, rfl⟩)
  · exact .inr (.inr ⟨‹_›, rfl⟩)

end Sys2Proof.Machine
end

