-- ==== Sys2Proof/Laws/PerInstr.lean ====
section
/-! SUPPORT. Per instruction: a command is encoded as its `CMD8` byte, an operation under its select (R50, R59). -/

namespace Sys2Proof.Laws.EncodedFormat

/-- The select of an operation's presentation. -/
def selectOf : Encoded → Option (BitVec 2)
  | .cmd8 _ => none
  | .fn2 p => some p.fn

/-- The instruction is encoded in the format and under the number its row of spec/opcode_table.json gives. -/
def Statement (i : Instr) : Prop :=
  (∃ op, i = commandOf op ∧ encode i = .cmd8 (wireValue op)) ∨
    ((∃ b, i = .opdec b) ∧ selectOf (encode i) = some 0#2) ∨
    ((∃ tag, i = .openc tag) ∧ selectOf (encode i) = some 1#2) ∨
    ((∃ r, i = .enc r) ∧ selectOf (encode i) = some 2#2) ∨
    ((∃ n, i = .dec n) ∧ selectOf (encode i) = some 3#2)

theorem setSampleCount : Statement .setSampleCount := .inl ⟨.setSampleCount, rfl, rfl⟩
theorem setAcqSampleRate : Statement .setAcqSampleRate := .inl ⟨.setAcqSampleRate, rfl, rfl⟩
theorem setInputSpeed : Statement .setInputSpeed := .inl ⟨.setInputSpeed, rfl, rfl⟩
theorem launchAq : Statement .launchAq := .inl ⟨.launchAq, rfl, rfl⟩
theorem setFeedbackSampleRate : Statement .setFeedbackSampleRate := .inl ⟨.setFeedbackSampleRate, rfl, rfl⟩
theorem setP : Statement .setP := .inl ⟨.setP, rfl, rfl⟩
theorem setI : Statement .setI := .inl ⟨.setI, rfl, rfl⟩
theorem setD : Statement .setD := .inl ⟨.setD, rfl, rfl⟩
theorem getStatus : Statement .getStatus := .inl ⟨.getStatus, rfl, rfl⟩
theorem setFeedback : Statement .setFeedback := .inl ⟨.setFeedback, rfl, rfl⟩
theorem opdec (b : Byte) : Statement (.opdec b) := .inr (.inl ⟨⟨b, rfl⟩, rfl⟩)
theorem openc (tag : BitVec 4) : Statement (.openc tag) := .inr (.inr (.inl ⟨⟨tag, rfl⟩, rfl⟩))
theorem enc (r : StatusRecord) : Statement (.enc r) := .inr (.inr (.inr (.inl ⟨⟨r, rfl⟩, rfl⟩)))
theorem dec (n : Nat) : Statement (.dec n) := .inr (.inr (.inr (.inr ⟨⟨n, rfl⟩, rfl⟩)))

end Sys2Proof.Laws.EncodedFormat
end

