-- ==== Sys2Proof/Laws/Ports.lean ====
section
/-! SUPPORT. The output ports for each kind of result (R23, R110), and what is legal to deliver. -/

namespace Sys2Proof.Machine

theorem ports_eq {s : State} {d : Delivered} (h : s.delivered = d) :
    s.ports = drivePorts (Config.freeOutputs s.draw) d := by
  rw [State.ports, h]

variable (free : OutPorts)

@[simp] theorem drivePorts_nothing : drivePorts free .nothing = free := rfl
@[simp] theorem drivePorts_opcode_status (op : Opcode) : (drivePorts free (.opcode op)).status = 0#2 := rfl
@[simp] theorem drivePorts_opcode_tagOut (op : Opcode) : (drivePorts free (.opcode op)).tagOut = opcodeTag op := rfl
@[simp] theorem drivePorts_byte_status (b : Byte) : (drivePorts free (.byte b)).status = 0#2 := rfl
@[simp] theorem drivePorts_byte_byteOut (b : Byte) : (drivePorts free (.byte b)).byteOut = b := rfl
@[simp] theorem drivePorts_bytes_status (bs : List Byte) : (drivePorts free (.bytes bs)).status = 0#2 := rfl
@[simp] theorem drivePorts_bytes_bufOut (bs : List Byte) : (drivePorts free (.bytes bs)).bufOut = packBytes bs := rfl
@[simp] theorem drivePorts_record_status (r : StatusRecord) : (drivePorts free (.record r)).status = 0#2 := rfl
@[simp] theorem drivePorts_record_kpOut (r : StatusRecord) : (drivePorts free (.record r)).kpOut = r.kp := rfl
@[simp] theorem drivePorts_record_kdOut (r : StatusRecord) : (drivePorts free (.record r)).kdOut = r.kd := rfl
@[simp] theorem drivePorts_record_kiOut (r : StatusRecord) : (drivePorts free (.record r)).kiOut = r.ki := rfl
@[simp] theorem drivePorts_record_delayOut (r : StatusRecord) :
    (drivePorts free (.record r)).delayOut = r.feedbackLoopDelay := rfl
@[simp] theorem drivePorts_record_feOut (r : StatusRecord) :
    (drivePorts free (.record r)).feOut = bitOfFlag r.feedbackEnabled := rfl
@[simp] theorem drivePorts_error_status (e : Error) : (drivePorts free (.error e)).status = errorCode e := rfl

@[simp] theorem legal_nothing : Delivered.nothing.Legal := trivial
@[simp] theorem legal_opcode (op : Opcode) : (Delivered.opcode op).Legal := trivial
@[simp] theorem legal_byte (b : Byte) : (Delivered.byte b).Legal ↔ b ≤ 0x09#8 := Iff.rfl
@[simp] theorem legal_record (r : StatusRecord) : (Delivered.record r).Legal := trivial
@[simp] theorem legal_error (e : Error) : (Delivered.error e).Legal := trivial

/-- What `ENC` delivers is legal (R35, R55, R93). -/
theorem legal_encodeRecord (r : StatusRecord) : (Delivered.bytes (encodeRecord r)).Legal := by
  refine ⟨encodeRecord_length r, ?_⟩
  have h : (encodeRecord r)[16]? = some (boolByte r.feedbackEnabled) := rfl
  rw [h]
  cases r.feedbackEnabled
  · exact .inl rfl
  · exact .inr rfl

/-- What a successful `OPENC` delivers is legal (R71). -/
theorem legal_wireValue (op : Opcode) : (Delivered.byte (wireValue op)).Legal :=
  (legal_byte _).2 (wireValue_le op)

/-- Delivering something legal keeps a canonical memory and gives the invariant. -/
theorem inv_deliver {s : State} {d : Delivered} (hm : s.mem.wf) (hd : d.Legal) : (s.deliver d).Inv := ⟨hm, hd⟩

/-- Returning an error keeps a canonical memory and gives the invariant. -/
theorem inv_raise {s : State} (e : Error) (hm : s.mem.wf) : (s.raise e).Inv := ⟨hm, trivial⟩

end Sys2Proof.Machine
end

