-- ==== Sys2Proof/Tests/Slice0.lean ====
section
/-! SUPPORT. Tests. Expected values are those of 95_test_vectors.md (the table or program is named) or written out from
the spec's encoding; the witnesses show that the hypotheses of the statements can be met, clause by clause. -/

namespace Sys2Proof.Tests

open Sys2Proof.Machine

/-- The handed buffer has room for `n` bytes, at an odd address. -/
def room (n : Nat) : State := { State.reset with buf := { base := 0x1001, size := n } }

/-- The handed buffer holds exactly these bytes. -/
def holding (bs : List Byte) : State :=
  { State.reset with buf := { base := 0x1001, size := bs.length }, mem := Memory.writeBytes [] 0x1001 bs }

/-- What an outcome delivered, none for a stop. -/
def result : Host.Outcome State Fault Refusal → Option Delivered
  | .next s => some s.delivered
  | .fault _ => none
  | .refused _ => none

/-- Why an outcome was refused. -/
def refusal : Host.Outcome State Fault Refusal → Option Refusal
  | .next _ => none
  | .fault _ => none
  | .refused r => some r

/-- The record of S1. -/
def scenario : StatusRecord := ⟨0x3FC00000#32, 0x3E800000#32, 0x00000000#32, 1000#32, true⟩

/-- The first 16 bytes of S1. -/
def scenarioWords : List Byte :=
  [0x00#8, 0x00#8, 0xC0#8, 0x3F#8, 0x00#8, 0x00#8, 0x80#8, 0x3E#8, 0x00#8, 0x00#8, 0x00#8, 0x00#8, 0xE8#8, 0x03#8, 0x00#8, 0x00#8]

/-- The bytes of S1 but for the last, which is given. -/
def scenarioBytes (flag : Byte) : List Byte := scenarioWords ++ [flag]

/-! Decoding: the bytes of 30_encoding.md R56 and the selects of R59, bit by bit. -/

theorem test_decode_setSampleCount : decode (.cmd8 0b00000000#8) = .instr .setSampleCount := by decide
theorem test_decode_setAcqSampleRate : decode (.cmd8 0b00000001#8) = .instr .setAcqSampleRate := by decide
theorem test_decode_setInputSpeed : decode (.cmd8 0b00000010#8) = .instr .setInputSpeed := by decide
theorem test_decode_launchAq : decode (.cmd8 0b00000011#8) = .instr .launchAq := by decide
theorem test_decode_setFeedbackSampleRate : decode (.cmd8 0b00000100#8) = .instr .setFeedbackSampleRate := by decide
theorem test_decode_setP : decode (.cmd8 0b00000101#8) = .instr .setP := by decide
theorem test_decode_setI : decode (.cmd8 0b00000110#8) = .instr .setI := by decide
theorem test_decode_setD : decode (.cmd8 0b00000111#8) = .instr .setD := by decide
theorem test_decode_getStatus : decode (.cmd8 0b00001000#8) = .instr .getStatus := by decide
theorem test_decode_setFeedback : decode (.cmd8 0b00001001#8) = .instr .setFeedback := by decide
theorem test_decode_first_unknown : decode (.cmd8 0b00001010#8) = .rejected .unknownOpcode := by decide
theorem test_decode_last_unknown : decode (.cmd8 0b11111111#8) = .rejected .unknownOpcode := by decide
/-- P4 step 2 -/
theorem test_decode_opdec :
    decode (.fn2 ⟨0b00#2, 0b10001000#8, 0xF#4, 1#32, 2#32, 3#32, 4#32, 1#1, 5⟩) = .instr (.opdec 0x88#8) := by decide
/-- P5 at `b` = 9 -/
theorem test_decode_openc :
    decode (.fn2 ⟨0b01#2, 0xFF#8, 0b1001#4, 1#32, 2#32, 3#32, 4#32, 1#1, 5⟩) = .instr (.openc 9#4) := by decide
theorem test_decode_openc_not_an_opcode :
    decode (.fn2 ⟨0b01#2, 0x00#8, 0b1010#4, 0#32, 0#32, 0#32, 0#32, 0#1, 0⟩) = .rejected .notAnOpcode := by decide
/-- P1 step 3 -/
theorem test_decode_enc :
    decode (.fn2 ⟨0b10#2, 0xFF#8, 0xF#4, 0x3FC00000#32, 0x3E800000#32, 0x00000000#32, 0x000003E8#32, 1#1, 5⟩) =
      .instr (.enc scenario) := by decide
/-- P2 step 1 -/
theorem test_decode_dec :
    decode (.fn2 ⟨0b11#2, 0xFF#8, 0xF#4, 1#32, 2#32, 3#32, 4#32, 1#1, 19⟩) = .instr (.dec 19) := by decide
theorem test_decodeTableWord :
    decodeTableWord 8 0x08 = some .getStatus ∧ decodeTableWord 8 0x0A = none ∧
      decodeTableWord 2 0 = some (.opdec 0#8) ∧ decodeTableWord 2 1 = some (.openc 0#4) ∧
      decodeTableWord 2 2 = some (.enc ⟨0#32, 0#32, 0#32, 0#32, false⟩) ∧ decodeTableWord 2 3 = some (.dec 0) := by decide

/-! WellFormed: its one check refuses an ill-formed term, and takes the last well-formed one. -/

theorem test_wellFormed_refuses_tag : ¬ (Instr.openc 0xA#4).WellFormed := by decide
theorem test_wellFormed_takes_tag : (Instr.openc 0x9#4).WellFormed := by decide

/-! The meanings. -/

/-- table V-OPDEC, the ten commands -/
theorem test_commands :
    [Instr.setSampleCount, .setAcqSampleRate, .setInputSpeed, .launchAq, .setFeedbackSampleRate, .setP, .setI, .setD,
      .getStatus, .setFeedback].map (fun i => result (exec i State.reset)) =
    [Opcode.setSampleCount, .setAcqSampleRate, .setInputSpeed, .launchAq, .setFeedbackSampleRate, .setP, .setI, .setD,
      .getStatus, .setFeedback].map (fun op => some (.opcode op)) := by decide
/-- table V-OPDEC -/
theorem test_opdec_ok : result (exec (.opdec 0x09#8) State.reset) = some (.opcode .setFeedback) := by decide
/-- table V-OPDEC -/
theorem test_opdec_unknown :
    [0x0A#8, 0x0F#8, 0x10#8, 0x18#8, 0x80#8, 0x88#8, 0xFF#8].map (fun b => result (exec (.opdec b) State.reset)) =
      List.replicate 7 (some (.error .unknownOpcode)) := by decide
/-- table V-OPENC -/
theorem test_openc :
    [0#4, 1#4, 2#4, 3#4, 4#4, 5#4, 6#4, 7#4, 8#4, 9#4].map (fun g => result (exec (.openc g) State.reset)) =
      [0x00#8, 0x01#8, 0x02#8, 0x03#8, 0x04#8, 0x05#8, 0x06#8, 0x07#8, 0x08#8, 0x09#8].map (fun b => some (.byte b)) := by
  decide
/-- table V-OPENC, the last row -/
theorem test_openc_refused : refusal (exec (.openc 0xA#4) State.reset) = some .notAnOpcode := by decide
/-- V-ENC-4: every byte distinct -/
theorem test_enc_order :
    result (exec (.enc ⟨0x11223344#32, 0x55667788#32, 0x99AABBCC#32, 0xDDEEFF00#32, false⟩) (room 17)) =
      some (.bytes [0x44#8, 0x33#8, 0x22#8, 0x11#8, 0x88#8, 0x77#8, 0x66#8, 0x55#8, 0xCC#8, 0xBB#8, 0xAA#8, 0x99#8,
        0x00#8, 0xFF#8, 0xEE#8, 0xDD#8, 0x00#8]) := by decide
/-- V-ENC-7: NaN sign and payload are kept -/
theorem test_enc_nan :
    result (exec (.enc ⟨0x7FA00001#32, 0xFFC12345#32, 0x807FFFFF#32, 0x80000000#32, true⟩) (room 17)) =
      some (.bytes [0x01#8, 0x00#8, 0xA0#8, 0x7F#8, 0x45#8, 0x23#8, 0xC1#8, 0xFF#8, 0xFF#8, 0xFF#8, 0x7F#8, 0x80#8,
        0x00#8, 0x00#8, 0x00#8, 0x80#8, 0x01#8]) := by decide
/-- table V-DEC, first row -/
theorem test_dec_record :
    result (exec (.dec 17) (holding [0x01#8, 0x02#8, 0x03#8, 0x04#8, 0x05#8, 0x06#8, 0x07#8, 0x08#8, 0x09#8, 0x0A#8, 0x0B#8,
      0x0C#8, 0x0D#8, 0x0E#8, 0x0F#8, 0x10#8, 0x01#8])) =
      some (.record ⟨0x04030201#32, 0x08070605#32, 0x0C0B0A09#32, 0x100F0E0D#32, true⟩) := by decide
/-- tables V-DEC-B and V-DEC-T: reserved flags, with a trailing byte too, and 16 bytes of `02` -/
theorem test_dec_errors :
    ([0x02#8, 0x03#8, 0x80#8, 0x81#8, 0xFE#8, 0xFF#8].map fun b => result (exec (.dec 17) (holding (scenarioBytes b)))) =
        List.replicate 6 (some (.error .invalidBooleanEncoding)) ∧
      result (exec (.dec 18) (holding (scenarioBytes 0x02#8 ++ [0xAB#8]))) = some (.error .invalidBooleanEncoding) ∧
      result (exec (.dec 16) (holding (List.replicate 16 0x02#8))) = some (.error .truncatedBuffer) := by decide
/-- U9: a count of 100 over 18 bytes is refused, whatever stands at offsets 0 to 16 -/
theorem test_dec_count_beyond_present :
    refusal (exec (.dec 100) (holding (scenarioBytes 0x01#8 ++ [0xAB#8]))) = some .countBeyondPresent ∧
      refusal (exec (.dec 100) (holding (scenarioBytes 0x02#8 ++ [0xAB#8]))) = some .countBeyondPresent := by decide
/-- table V-DEC: S1 with the trailing bytes `AB CD`, all 19 declared -/
theorem test_dec_trailing :
    result (exec (.dec 19) (holding (scenarioBytes 0x01#8 ++ [0xAB#8, 0xCD#8]))) = some (.record scenario) := by decide

/-! Steps. -/

/-- P4 step 1, as a `CMD8` byte -/
theorem test_step_unknown_byte :
    result (step { State.reset with pending := [.present (.cmd8 0x0A#8) ⟨0, 0⟩] }) = some (.error .unknownOpcode) := by decide
/-- P1 step 1, as the first instruction after reset -/
theorem test_step_withFetchWord : result (step (State.reset.withFetchWord 8 0x08)) = some (.opcode .getStatus) := by decide
theorem test_step_idle : result (step State.reset) = some .nothing := by decide

/-! Witnesses. -/

/-- A state whose caller presents `e` next. -/
def presenting (e : Encoded) : State := { State.reset with pending := [.present e ⟨0x1001, 17⟩] }

/-- A presentation of `OPENC` with the first tag that is no opcode. -/
def tenthTag : InPorts := { InPorts.zero 1#2 with tagIn := 0xA#4 }

theorem witness_step_decoded :
    (presenting (.cmd8 0x09#8)).pending = [.present (.cmd8 0x09#8) ⟨0x1001, 17⟩] ∧
      decode (.cmd8 0x09#8) = .instr .setFeedback := by decide
theorem witness_unknown_byte :
    (presenting (.cmd8 0x0A#8)).pending = [.present (.cmd8 0x0A#8) ⟨0x1001, 17⟩] ∧ 0x0A#8 ≤ (0x0A#8 : Byte) := by decide
theorem witness_wellFormed : (Instr.openc 9#4).WellFormed ∧ (Instr.dec 16).WellFormed := by decide
theorem witness_opdec_clauses : (InPorts.zero 0#2).fn = 0#2 ∧ (0x09#8 : Byte) ≤ 0x09#8 ∧ 0x0A#8 ≤ (0x0A#8 : Byte) := by decide
theorem witness_openc_clauses :
    (tenthTag.fn = 1#2 ∧ 0xA#4 ≤ tenthTag.tagIn) ∧ (9#4 : BitVec 4) ≤ 0x9#4 ∧
      (presenting (.fn2 tenthTag)).pending = [.present (.fn2 tenthTag) ⟨0x1001, 17⟩] := by decide
theorem witness_openc_decodes : (InPorts.zero 1#2).fn = 1#2 ∧ (InPorts.zero 1#2).tagIn ≤ 0x9#4 := by decide
theorem witness_enc_select_and_room : (InPorts.zero 2#2).fn = 2#2 ∧ 17 ≤ (room 17).buf.size := by decide
theorem witness_short_destination : (room 16).buf.size < 17 := by decide
theorem witness_enc_next : ∃ t, exec (.enc scenario) (room 17) = .next t := ⟨_, rfl⟩
/-- A word at an odd offset, the last that fits in the 17 bytes. -/
theorem witness_word_bytes :
    (holding (scenarioBytes 1#8)).handedByte 13 = some 0x03#8 ∧ (holding (scenarioBytes 1#8)).handedByte 14 = some 0x00#8 ∧
      (holding (scenarioBytes 1#8)).handedByte 15 = some 0x00#8 ∧ (holding (scenarioBytes 1#8)).handedByte 16 = some 0x01#8 := by
  decide
theorem witness_seventeen_bytes : (scenarioBytes 1#8).length = 17 ∧ 16 < 17 := by decide
/-- The clauses of `DEC`: counts at 16 and 17, flags at 0x00, 0x01 and 0x02. -/
theorem witness_dec_clauses :
    (InPorts.zero 3#2).fn = 3#2 ∧ 16 < 17 ∧ 17 ≤ 17 ∧
      (∀ k, k < 17 → (holding (scenarioBytes 0x00#8)).handedByte k = some ((scenarioBytes 0x00#8).getD k 0#8)) ∧
      (∀ k, k < 17 → (holding (scenarioBytes 0x01#8)).handedByte k = some ((scenarioBytes 0x01#8).getD k 0#8)) ∧
      (∀ k, k < 17 → (holding (scenarioBytes 0x02#8)).handedByte k = some ((scenarioBytes 0x02#8).getD k 0#8)) ∧
      (scenarioBytes 0x02#8).getD 16 0#8 = 0x02#8 := by decide
/-- `State.Holds`, as the statements have it. -/
theorem witness_holds : (holding (scenarioBytes 0x01#8)).Holds 17 fun k => (scenarioBytes 0x01#8).getD k 0#8 :=
  witness_dec_clauses.2.2.2.2.1
theorem witness_count_truthful : 17 ≤ 17 ∧ (holding (scenarioBytes 0x01#8)).CountTruthful 17 :=
  ⟨by decide, declaredPresent_iff.1 (by decide)⟩
/-- Five bytes declared and present: offset 4 is the last that carries one, 5 the first that does not, 16 the last. -/
theorem witness_buf_in :
    (4 < 17 ∧ 4 < 5 ∧ (holding [1#8, 2#8, 3#8, 4#8, 5#8]).handedByte 4 = some 5#8) ∧ (5 < 17 ∧ 5 ≤ 5) ∧ 16 < 17 := by decide
/-- Two buffers at different places with different trailing bytes and the same first 17. -/
theorem witness_same_record_bytes :
    (∀ k, k < 17 → (holding (scenarioBytes 1#8 ++ [0xAB#8, 0xCD#8])).handedByte k = (holding (scenarioBytes 1#8)).handedByte k) ∧
      17 ≤ 19 := by decide
/-- Both counts are truthful, 19 over the one and 17 over the other. -/
theorem witness_same_record_counts :
    (holding (scenarioBytes 1#8 ++ [0xAB#8, 0xCD#8])).CountTruthful 19 ∧ (holding (scenarioBytes 1#8)).CountTruthful 17 :=
  ⟨declaredPresent_iff.1 (by decide), declaredPresent_iff.1 (by decide)⟩
/-- Trailing bytes that differ and are present at the same offsets. -/
theorem witness_same_handed :
    (holding (scenarioBytes 1#8 ++ [0xAB#8, 0xCD#8])).SameHanded (holding (scenarioBytes 1#8 ++ [0x5A#8, 0xA5#8])) := by
  refine ⟨by decide, fun k => ?_, by decide⟩
  by_cases hk : k < 19
  · revert k
    decide
  · rw [handedByte_eq_none (Nat.not_lt.1 hk), handedByte_eq_none (Nat.not_lt.1 hk)]
/-- Two buffers with room and different bytes, for an instruction that is not `DEC`. -/
theorem witness_other_bytes :
    (∀ n, Instr.getStatus ≠ .dec n) ∧ ((room 17).buf.size < 17 ↔ (holding (scenarioBytes 1#8)).buf.size < 17) ∧
      (room 17).handedByte 0 ≠ (holding (scenarioBytes 1#8)).handedByte 0 := ⟨by simp, by decide, by decide⟩
theorem witness_dec_next : ∃ t, exec (.dec 17) (holding (scenarioBytes 1#8)) = .next t := ⟨_, rfl⟩
/-- A count of 17 over a buffer of 16 bytes, and one of 19 over 18: the last declared byte is not there. -/
theorem witness_untruthful_count :
    (17 ≤ 17 ∧ 16 < 17 ∧ (holding scenarioWords).handedByte 16 = none) ∧
      17 ≤ 19 ∧ 18 < 19 ∧ (holding (scenarioBytes 1#8 ++ [0xAB#8])).handedByte 18 = none := by decide
/-- One declared trailing byte that is present, and none declared. -/
theorem witness_trailing_bytes :
    let s := holding (scenarioBytes 1#8 ++ [0xAB#8])
    17 ≤ s.buf.size ∧ 17 ≤ 18 ∧ (∀ k, k < 18 → 17 ≤ k → (s.handedByte k).isSome = true) ∧
      (∀ k, k < 18 → 17 ≤ k → k < s.buf.size ∧ (s.mem.read (s.buf.base + k)).isSome = true) ∧
      ∀ k, k < 17 → 17 ≤ k → (s.handedByte k).isSome = true := by decide
theorem witness_canonical_memory : (holding (scenarioBytes 1#8)).mem.wf := by decide
theorem witness_same_bytes_delivered :
    ∃ t t', exec (.enc scenario) (room 17) = .next t ∧ exec (.enc scenario) (room 17) = .next t' ∧
      t.delivered = t'.delivered := ⟨_, _, rfl, rfl, rfl⟩
theorem witness_not_enc_next : (∀ r, Instr.getStatus ≠ .enc r) ∧ ∃ t, exec .getStatus State.reset = .next t :=
  ⟨by simp, _, rfl⟩
/-- Each of the three errors is delivered by some instruction. -/
theorem witness_errors :
    (∃ t, exec (.opdec 0x0A#8) State.reset = .next t ∧ t.delivered = .error .unknownOpcode) ∧
      (∃ t, exec (.dec 16) State.reset = .next t ∧ t.delivered = .error .truncatedBuffer) ∧
      (∃ t, exec (.dec 17) (holding (scenarioBytes 2#8)) = .next t ∧ t.delivered = .error .invalidBooleanEncoding) :=
  ⟨⟨_, rfl, rfl⟩, ⟨_, rfl, rfl⟩, ⟨_, rfl, rfl⟩⟩
theorem witness_contract :
    CallerKeepsContract (.openc 9#4) State.reset ∧ CallerKeepsContract (.enc scenario) (room 17) ∧
      CallerKeepsContract (.dec 16) State.reset ∧ CallerKeepsContract (.dec 17) (holding (scenarioBytes 1#8)) := by
  refine ⟨⟨by decide, by simp, by simp⟩, ⟨by decide, fun _ _ => by decide, by simp⟩, ⟨rfl, by simp, ?_⟩, rfl, by simp, ?_⟩
  · rintro n h hn
    cases h
    exact absurd hn (by decide)
  · rintro n h -
    cases h
    exact witness_count_truthful.2
theorem witness_enc_then_dec :
    ∃ s : State, s.pending = [.present (encode (.enc scenario)) ⟨0x1001, 17⟩, .present (encode (.dec 17)) ⟨0x1001, 17⟩] ∧
      17 ≤ (Handed.mk 0x1001 17).size := ⟨{ State.reset with pending := _ }, rfl, by decide⟩
theorem witness_get_status :
    ∃ s : State, s.pending = [.present (.cmd8 0x08#8) ⟨0, 1⟩, .present (encode (.enc scenario)) ⟨0x1001, 17⟩] :=
  ⟨{ State.reset with pending := _ }, rfl⟩
/-- The bytes of S1 in a host's buffer. -/
theorem witness_host_buffer :
    ∀ k, k < 17 → (holding (scenarioBytes 1#8)).handedByte k = (encodeRecord scenario)[k]? := by decide
/-- The narrowest port: 31 fits and is presented as it is, 32 does not and 17 serves. -/
theorem witness_length_port :
    5 ≤ 5 ∧ (31 < 2 ^ 5 → (31#5).toNat = 31) ∧ (2 ^ 5 ≤ 31 → 17 ≤ (31#5).toNat) ∧
      (32 < 2 ^ 5 → (17#5).toNat = 32) ∧ (2 ^ 5 ≤ 32 → 17 ≤ (17#5).toNat) := by decide
theorem witness_length_port_counts :
    (holding (List.replicate 32 0#8)).CountTruthful 31 ∧ (holding (List.replicate 32 0#8)).CountTruthful 32 :=
  ⟨declaredPresent_iff.1 (by decide), declaredPresent_iff.1 (by decide)⟩
theorem witness_reset_event : ∃ s : State, s.pending = [.reset] := ⟨{ State.reset with pending := _ }, rfl⟩
theorem witness_idle_and_store : State.reset.pending = [] ∧ ∃ s : State, s.pending = [.callerStores 0x1001 [0xEE#8]] :=
  ⟨rfl, { State.reset with pending := _ }, rfl⟩
/-- A step that changes a byte of memory: the first byte that `ENC` places. -/
theorem witness_memory_changes :
    ∃ t, step (presenting (encode (.enc scenario))) = .next t ∧
      t.mem.read 0x1001 ≠ (presenting (encode (.enc scenario))).mem.read 0x1001 := ⟨_, rfl, by decide⟩
theorem witness_invariant : State.reset.Inv ∧ ∃ t, step State.reset = .next t := ⟨⟨by decide, trivial⟩, _, rfl⟩

end Sys2Proof.Tests
end

namespace Sys2Proof.Machine

/-- What decodes to an instruction is run as that instruction: neither of the two rejections applies. -/
theorem runEncoded_of_instr {e : Encoded} {i : Instr} (s : State) (h : decode e = .instr i) :
    runEncoded e s = exec i s := by
  simp [runEncoded, h]

/-- Settles O1: the step takes the presentation off the list and accepts its buffer (`step_present`), and what the
presentation decodes to is then run from that state (R7, R46). -/
theorem stepRunsTheDecodedInstruction : Obligations.StepRunsTheDecodedInstruction := by
  intro s e buf rest i hpending hdecode
  calc
    step s = runEncoded e (s.accept buf rest) := step_present hpending
    _ = exec i (s.accept buf rest) := runEncoded_of_instr _ hdecode
    _ = exec i { s with pending := rest, buf := buf } := rfl

end Sys2Proof.Machine

namespace Sys2Proof.Machine

/-! What an operation delivers depends on its operands and the handed bytes alone (R10, R36). -/

@[simp] theorem sameResult_next {s t : State} : SameResult (.next s) (.next t) ↔ s.delivered = t.delivered := Iff.rfl

@[simp] theorem sameResult_refused {p q : Refusal} : SameResult (.refused p) (.refused q) ↔ p = q := Iff.rfl

/-- Equal memory under equal buffers is handed over alike, whatever the list, the last result and the counter. -/
theorem sameHanded_of_mem_buf {s t : State} (hm : s.mem = t.mem) (hb : s.buf = t.buf) : s.SameHanded t :=
  ⟨fun k _ => handedByte_congr hm hb k, fun k => congrArg Option.isSome (handedByte_congr hm hb k), by rw [hb]⟩

theorem parseCommandByte_delivered_congr (s t : State) (b : Byte) :
    (s.parseCommandByte b).delivered = (t.parseCommandByte b).delivered := by
  unfold State.parseCommandByte
  cases opcodeFromByte b with
  | some op => rfl
  | none => rfl

theorem decodeFields_delivered_congr (s t : State) (kp kd ki delay : Word32) (fe : Byte) :
    (s.decodeFields kp kd ki delay fe).delivered = (t.decodeFields kp kd ki delay fe).delivered := by
  unfold State.decodeFields
  cases boolOfByte fe with
  | some f => rfl
  | none => rfl

theorem execOpenc_sameResult (tag : BitVec 4) (s t : State) : SameResult (execOpenc tag s) (execOpenc tag t) := by
  unfold execOpenc
  cases opcodeOfTag tag with
  | some op => rfl
  | none => rfl

/-- Of the destination `ENC` sees no more than whether it has room (R41, R93). -/
theorem execEnc_sameResult (r : StatusRecord) {s t : State} (hroom : s.buf.size < 17 ↔ t.buf.size < 17) :
    SameResult (execEnc r s) (execEnc r t) := by
  obtain ⟨hs, hsExec⟩ | ⟨hs, hsExec⟩ := execEnc_cases r s
  · obtain ⟨-, htExec⟩ | ⟨ht, -⟩ := execEnc_cases r t
    · rw [hsExec, htExec, sameResult_next, deliver_delivered, deliver_delivered]
    · omega
  · obtain ⟨ht, -⟩ | ⟨-, htExec⟩ := execEnc_cases r t
    · omega
    · rw [hsExec, htExec, sameResult_refused]

/-- Under truthful counts of 17 or more `DEC` sees the bytes at offsets 0 to 16 and nothing else (R36, R39). -/
theorem execDec_sameResult_of_truthful {n n' : Nat} {s t : State} (hn : 17 ≤ n) (hn' : 17 ≤ n')
    (hbytes : ∀ k, k < 17 → s.handedByte k = t.handedByte k) (hs : s.CountTruthful n) (ht : t.CountTruthful n') :
    SameResult (execDec n s) (execDec n' t) := by
  obtain ⟨B, hB⟩ := holds_of_truthful hs
  obtain ⟨C, hC⟩ := holds_of_truthful ht
  have hBC (k : Nat) (hk : k < 17) : B k = C k := Option.some.inj <| calc
    some (B k) = s.handedByte k := (hB k (by omega)).symm
    _ = t.handedByte k := hbytes k hk
    _ = some (C k) := hC k (by omega)
  rw [execDec_of_holds hn hB, execDec_of_holds hn' hC, sameResult_next]
  simp only [hBC, Nat.reduceLT]
  exact decodeFields_delivered_congr s t _ _ _ _ _

/-- Buffers with bytes present at the same offsets make the same counts truthful (R134). -/
theorem countTruthful_congr {s t : State} (h : ∀ k, (s.handedByte k).isSome = (t.handedByte k).isSome) (n : Nat) :
    s.CountTruthful n ↔ t.CountTruthful n := by
  simp only [State.CountTruthful, h]

theorem execDec_sameResult (n : Nat) {s t : State} (hbytes : ∀ k, k < 17 → s.handedByte k = t.handedByte k)
    (hpresent : ∀ k, (s.handedByte k).isSome = (t.handedByte k).isSome) :
    SameResult (execDec n s) (execDec n t) := by
  have htruthful := countTruthful_congr hpresent n
  obtain ⟨hn, hsExec⟩ | ⟨hn, hs, -⟩ | ⟨hn, hs, hsExec⟩ := execDec_cases n s
  · have htExec : execDec n t = .next (t.raise .truncatedBuffer) := if_pos hn
    rw [hsExec, htExec, sameResult_next, raise_delivered, raise_delivered]
  · exact execDec_sameResult_of_truthful hn hn hbytes hs (htruthful.1 hs)
  · obtain ⟨hlt, -⟩ | ⟨-, ht, -⟩ | ⟨-, -, htExec⟩ := execDec_cases n t
    · omega
    · exact absurd (htruthful.2 ht) hs
    · rw [hsExec, htExec, sameResult_refused]

/-- Every instruction but `DEC` reads no buffer (R36). -/
theorem exec_sameResult_of_not_dec {i : Instr} {s t : State} (hi : ∀ n, i ≠ .dec n)
    (hroom : s.buf.size < 17 ↔ t.buf.size < 17) : SameResult (exec i s) (exec i t) := by
  cases i with
  | dec n => exact absurd rfl (hi n)
  | enc r => exact execEnc_sameResult r hroom
  | openc tag => exact execOpenc_sameResult tag s t
  | _ => exact parseCommandByte_delivered_congr s t _

theorem exec_sameResult_of_sameHanded (i : Instr) {s t : State} (h : s.SameHanded t) :
    SameResult (exec i s) (exec i t) := by
  obtain ⟨hbytes, hpresent, hroom⟩ := h
  by_cases hi : ∃ n, i = .dec n
  · obtain ⟨n, rfl⟩ := hi
    exact execDec_sameResult n hbytes hpresent
  · exact exec_sameResult_of_not_dec (not_exists.1 hi) hroom

/-- Settles O27: `DEC` reads the same 17 bytes under a count that is truthful for both, `ENC` sees whether there is
room, and the rest read nothing of the state. -/
theorem resultDependsOnOperandsAlone : Obligations.ResultDependsOnOperandsAlone :=
  ⟨fun i _ _ h => exec_sameResult_of_sameHanded i h, fun _ _ _ hi hroom => exec_sameResult_of_not_dec hi hroom⟩

/-- Settles O28: an instruction that is not `ENC` only delivers (`exec_next_of_not_enc`), so memory and buffer are
handed to the later one as they were. -/
theorem noOperationChangesALaterResult : Obligations.NoOperationChangesALaterResult := by
  intro i j s t hi h
  obtain ⟨d, rfl⟩ := exec_next_of_not_enc hi h
  exact exec_sameResult_of_sameHanded j (sameHanded_of_mem_buf (deliver_mem s d) (deliver_buf s d))

/-! Who writes memory (R34, R35). -/

/-- A byte that differs after a byte sequence was written is one of those written. -/
theorem Memory.mem_range_of_read_writeBytes_ne {m : Memory} {a x : Nat} {bs : List Byte}
    (h : (m.writeBytes a bs).read x ≠ m.read x) : a ≤ x ∧ x < a + bs.length := by
  by_contra hx
  exact h (Memory.read_writeBytes_outside m bs (by omega))

/-- An instruction changes a byte of memory only as an `ENC`, within its 17 bytes (R35). -/
theorem exec_next_read_ne {i : Instr} {s t : State} {a : Nat} (h : exec i s = .next t)
    (ha : t.mem.read a ≠ s.mem.read a) : ∃ r, i = .enc r ∧ s.buf.base ≤ a ∧ a < s.buf.base + 17 := by
  by_cases hi : ∃ r, i = .enc r
  · obtain ⟨r, rfl⟩ := hi
    obtain ⟨-, rfl⟩ := exec_enc_next h
    rw [deliver_mem, storeHanded_mem] at ha
    exact ⟨r, rfl, Memory.mem_range_of_read_writeBytes_ne ha⟩
  · obtain ⟨d, rfl⟩ := exec_next_of_not_enc (not_exists.1 hi) h
    exact absurd rfl ha

/-- A presentation changes a byte of memory only if it decodes to an `ENC`; an unknown byte stores nothing (R57). -/
theorem runEncoded_next_read_ne {e : Encoded} {s t : State} {a : Nat} (h : runEncoded e s = .next t)
    (ha : t.mem.read a ≠ s.mem.read a) : ∃ r, decode e = .instr (.enc r) ∧ s.buf.base ≤ a ∧ a < s.buf.base + 17 := by
  obtain ⟨i, hi, hrun⟩ | ⟨-, hrun⟩ | ⟨-, hrun⟩ := runEncoded_cases e s
  · obtain ⟨r, rfl, hrange⟩ := exec_next_read_ne (hrun.symm.trans h) ha
    exact ⟨r, hi, hrange⟩
  · cases hrun.symm.trans h
    exact absurd rfl ha
  · cases hrun.symm.trans h

/-- Settles O39, by the caller's next act: a presentation (`runEncoded_next_read_ne`), the caller's own store, or an act
that leaves memory as it is. -/
theorem onlyEncAndTheCallerWriteMemory : Obligations.OnlyEncAndTheCallerWriteMemory := by
  intro s t a h ha
  match hp : s.pending with
  | [] =>
    cases (step_idle hp).symm.trans h
    exact absurd rfl ha
  | .present e buf :: rest =>
    obtain ⟨r, hdecode, hrange⟩ := runEncoded_next_read_ne ((step_present hp).symm.trans h) ha
    exact .inl ⟨e, buf, rest, r, rfl, hdecode, hrange⟩
  | .callerStores x bs :: rest =>
    cases (step_callerStores hp).symm.trans h
    exact .inr ⟨x, bs, rest, rfl, Memory.mem_range_of_read_writeBytes_ne ha⟩
  | .reset :: rest =>
    cases (step_reset hp).symm.trans h
    exact absurd rfl ha

/-! The input port `buf_in` (R23). -/

/-- Byte `k` of a packed sequence (R23, R52). -/
theorem packBytes_extractLsb' (bs : List Byte) {k : Nat} (hk : k < 17) :
    (packBytes bs).extractLsb' (8 * k) 8 = bs[k]?.getD 0#8 := by
  refine BitVec.eq_of_getLsbD_eq fun j hj => ?_
  have hdiv : (8 * k + j) / 8 = k := by omega
  have hmod : (8 * k + j) % 8 = j := by omega
  rw [BitVec.getLsbD_extractLsb', packBytes_getLsbD bs _ (by omega), hdiv, hmod]
  simp [hj]

theorem bufIn_extractLsb' (s : State) (n : Nat) {k : Nat} (hk : k < 17) :
    (s.bufIn n).extractLsb' (8 * k) 8 = s.bufInByte n k := by
  rw [State.bufIn, packBytes_extractLsb' _ hk]
  simp [hk]

/-- Settles O42: byte `k` of the port is `bufInByte`, which is the buffer's byte below the count and free from it on. -/
theorem bufInCarriesTheDeclaredBytes : Obligations.BufInCarriesTheDeclaredBytes := by
  intro s n k hk
  rw [bufIn_extractLsb' s n hk]
  exact ⟨fun b hkn hb => bufInByte_declared hkn hb, fun hnk => bufInByte_undeclared hnk⟩

/-! The opcode table and the reset state. -/

/-- No two opcodes share a wire value, since the table reads backwards (R15). -/
theorem wireValue_injective : Function.Injective wireValue := fun op op' h =>
  Option.some.inj <| calc
    some op = opcodeFromByte (wireValue op) := (opcodeFromByte_wireValue op).symm
    _ = opcodeFromByte (wireValue op') := by rw [h]
    _ = some op' := opcodeFromByte_wireValue op'

theorem mem_opcodes (op : Opcode) : op ∈ opcodes := by
  cases op <;> decide

/-- The tag on a port is the wire value (R15). -/
@[simp] theorem setWidth_opcodeTag (op : Opcode) : BitVec.setWidth 8 (opcodeTag op) = wireValue op := by
  cases op <;> rfl

/-- Settles O6: the table is the definition's, read backwards it shows the wire values distinct, and a tag past the last
opcode's is none. -/
theorem opcodeTableIsTheTenValues : Obligations.OpcodeTableIsTheTenValues := by
  refine ⟨rfl, rfl, rfl, mem_opcodes, fun _ _ h => wireValue_injective h, setWidth_opcodeTag, fun tag => ?_⟩
  have hnext : 9#4 < tag ↔ 0xA#4 ≤ tag := by bv_omega
  exact opcodeOfTag_eq_none.trans hnext

/-- Reset memory is empty and nothing has been delivered, so the invariant holds. -/
theorem reset_inv : State.reset.Inv where
  memCanonical := List.Pairwise.nil
  legal := legal_nothing

/-- Settles O40: with nothing delivered the ports are the free values (`drivePorts_nothing`). -/
theorem resetStateMeetsTheInvariant : Obligations.ResetStateMeetsTheInvariant := by
  have hports : State.reset.ports = Config.freeOutputs State.reset.draw := by
    rw [ports_eq (d := .nothing) rfl, drivePorts_nothing]
  exact ⟨reset_inv, rfl, hports, rfl, rfl⟩

end Sys2Proof.Machine

namespace Sys2Proof.Machine

/-! The byte order and the packed value of a record (R31, R52). -/

/-- Byte `k` of a word (R31). -/
theorem leBytes_getElem? (v : Word32) {k : Nat} (hk : k < 4) : (leBytes v)[k]? = some (v.extractLsb' (8 * k) 8) := by
  interval_cases k <;> rfl

/-- Settles O15: writing places byte `k` of `leBytes`, and reading puts the four bytes together (`leWord`). -/
theorem multiByteFieldsAreLittleEndian : Obligations.MultiByteFieldsAreLittleEndian := by
  refine ⟨fun m a v k hk => ?_, fun s o b0 b1 b2 b3 h0 h1 h2 h3 => handedWord_of_bytes h0 h1 h2 h3⟩
  rw [Memory.read_writeBytes_inside m a (leBytes v) hk, leBytes_getElem? v hk]

/-- Prepending a word's bytes appends the word below the value packed so far (R52). -/
theorem packBytes_leBytes_append {w : Nat} {x : BitVec w} {bs : List Byte} (v : Word32)
    (h : packBytes bs = x.setWidth 136) : packBytes (leBytes v ++ bs) = (x ++ v).setWidth 136 := by
  rw [packBytes_word, h]
  refine BitVec.eq_of_getLsbD_eq fun j hj => ?_
  rw [BitVec.getLsbD_or, BitVec.getLsbD_shiftLeft, BitVec.getLsbD_setWidth, BitVec.getLsbD_setWidth,
    BitVec.getLsbD_setWidth, BitVec.getLsbD_append]
  by_cases hlow : j < 32
  · simp [hlow, hj]
  · have hv : v.getLsbD j = false := BitVec.getLsbD_of_ge _ _ (by omega)
    simp [hlow, hj, hv, show j - 32 < 136 by omega]

theorem packBytes_singleton (b : Byte) : packBytes [b] = b.setWidth 136 := by
  simp [packBytes]

/-- The packed encoding, one field after the other from the flag down (R33, R52). -/
theorem packBytes_encodeRecord (r : StatusRecord) : packBytes (encodeRecord r) =
    boolByte r.feedbackEnabled ++ r.feedbackLoopDelay ++ r.ki ++ r.kd ++ r.kp := by
  have h := packBytes_leBytes_append r.kp <| packBytes_leBytes_append r.kd <| packBytes_leBytes_append r.ki <|
    packBytes_leBytes_append r.feedbackLoopDelay (packBytes_singleton (boolByte r.feedbackEnabled))
  rw [BitVec.setWidth_eq] at h
  simpa only [encodeRecord, List.append_assoc] using h

/-- Settles O17: a byte of the packed value is the list's (`packBytes_extractLsb'`), and the fields follow each other
(`packBytes_encodeRecord`). -/
theorem statusValueIsTheFieldsInOrder : Obligations.StatusValueIsTheFieldsInOrder := by
  refine ⟨fun bs i hlen hi => ?_, packBytes_encodeRecord⟩
  have hib : i < bs.length := hlen ▸ hi
  rw [packBytes_extractLsb' bs hi, List.getElem?_eq_getElem hib, Option.getD_some]

/-! What `ENC` leaves in memory (R33, R35, R41). -/

/-- Settles O13: the first test of `ENC` is the room of its destination. -/
theorem encRefusesAShortDestination : Obligations.EncRefusesAShortDestination := by
  intro r s hshort
  obtain ⟨hroom, -⟩ | ⟨-, hrefused⟩ := execEnc_cases r s
  · omega
  · exact hrefused

/-- `ENC` delivers the bytes of the record, whatever the state (R93). -/
theorem exec_enc_delivered {r : StatusRecord} {s t : State} (h : exec (.enc r) s = .next t) :
    t.delivered = .bytes (encodeRecord r) := by
  obtain ⟨-, rfl⟩ := exec_enc_next h
  exact deliver_delivered _ _

theorem exec_enc_mem {r : StatusRecord} {s t : State} (h : exec (.enc r) s = .next t) :
    t.mem = s.mem.writeBytes s.buf.base (encodeRecord r) := by
  obtain ⟨-, rfl⟩ := exec_enc_next h
  rw [deliver_mem, storeHanded_mem]

theorem exec_enc_buf {r : StatusRecord} {s t : State} (h : exec (.enc r) s = .next t) : t.buf = s.buf := by
  obtain ⟨-, rfl⟩ := exec_enc_next h
  rw [deliver_buf, storeHanded_buf]

theorem exec_enc_draw {r : StatusRecord} {s t : State} (h : exec (.enc r) s = .next t) : t.draw = s.draw + 1 := by
  obtain ⟨-, rfl⟩ := exec_enc_next h
  rw [deliver_draw, storeHanded_draw]

/-- Settles O14: `ENC` delivers the 17 bytes of the record, which no state enters, and writes them from the base on
(`exec_enc_mem`). -/
theorem encWritesOffsetsZeroToSixteenOnly : Obligations.EncWritesOffsetsZeroToSixteenOnly := by
  intro r s t h
  refine ⟨⟨encodeRecord r, exec_enc_delivered h, encodeRecord_length r, fun k hk => ?_⟩, fun a ha => ?_,
    exec_next_pending h, exec_enc_buf h, exec_enc_draw h,
    fun s' t' h' => (exec_enc_delivered h').trans (exec_enc_delivered h).symm⟩
  · rw [exec_enc_mem h, Memory.read_writeBytes_inside s.mem s.buf.base (encodeRecord r) hk]
  · rw [exec_enc_mem h, Memory.read_writeBytes_outside s.mem (encodeRecord r) ha]

/-- The handed buffer holds the fields of a record at their offsets (R33). -/
structure State.HoldsRecord (s : State) (r : StatusRecord) : Prop where
  kp : s.handedWord 0 = some r.kp
  kd : s.handedWord 4 = some r.kd
  ki : s.handedWord 8 = some r.ki
  delay : s.handedWord 12 = some r.feedbackLoopDelay
  flag : s.handedByte 16 = some (boolByte r.feedbackEnabled)

/-- A word whose little-endian bytes stand in the handed buffer is read back (R31). -/
theorem handedWord_of_leBytes {s : State} {o : Nat} {v : Word32}
    (h : ∀ k, k < 4 → s.handedByte (o + k) = (leBytes v)[k]?) : s.handedWord o = some v := by
  have h0 : s.handedByte o = some (v.extractLsb' 0 8) := h 0 (by decide)
  rw [handedWord_of_bytes h0 (h 1 (by decide)) (h 2 (by decide)) (h 3 (by decide)), leWord_extract]

/-- After `ENC` the record's bytes stand at offsets 0 to 16 of the handed buffer (R35). -/
theorem exec_enc_handedByte {r : StatusRecord} {s t : State} (h : exec (.enc r) s = .next t) {k : Nat} (hk : k < 17) :
    t.handedByte k = (encodeRecord r)[k]? := by
  obtain ⟨hroom, rfl⟩ := exec_enc_next h
  rw [handedByte_deliver, handedByte_storeHanded hk (by omega)]

/-- `ENC` leaves offsets 17 and above as they were (R35). -/
theorem exec_enc_handedByte_beyond {r : StatusRecord} {s t : State} (h : exec (.enc r) s = .next t) {k : Nat}
    (hk : 17 ≤ k) : t.handedByte k = s.handedByte k := by
  obtain ⟨-, rfl⟩ := exec_enc_next h
  rw [handedByte_deliver, handedByte_storeHanded_beyond hk]

/-- A word that the encoding lists after `pre` stands at offset `pre.length` after `ENC` (R31, R33). -/
theorem exec_enc_handedWord {r : StatusRecord} {s t : State} (h : exec (.enc r) s = .next t) {pre post : List Byte}
    {v : Word32} (hr : encodeRecord r = pre ++ (leBytes v ++ post)) : t.handedWord pre.length = some v := by
  have hlen : 17 = pre.length + (4 + post.length) := by
    simpa using congrArg List.length hr
  refine handedWord_of_leBytes fun k hk => ?_
  rw [exec_enc_handedByte h (by omega), hr, List.getElem?_append_right (by omega), Nat.add_sub_cancel_left,
    List.getElem?_append_left hk]

theorem exec_enc_holdsRecord {r : StatusRecord} {s t : State} (h : exec (.enc r) s = .next t) : t.HoldsRecord r where
  kp := exec_enc_handedWord h (pre := []) rfl
  kd := exec_enc_handedWord h (pre := leBytes r.kp) rfl
  ki := exec_enc_handedWord h (pre := leBytes r.kp ++ leBytes r.kd) rfl
  delay := exec_enc_handedWord h (pre := leBytes r.kp ++ leBytes r.kd ++ leBytes r.ki) rfl
  flag := exec_enc_handedByte h (by decide)

/-- Settles O16: the record's fields stand in the handed buffer (`exec_enc_holdsRecord`), and the rest is as before. -/
theorem fieldMapOfTheEncodedRecord : Obligations.FieldMapOfTheEncodedRecord := by
  intro r s t h
  obtain ⟨hkp, hkd, hki, hdelay, hflag⟩ := exec_enc_holdsRecord h
  exact ⟨hkp, hkd, hki, hdelay, hflag, fun k hk => exec_enc_handedByte_beyond h hk⟩

/-! What `DEC` reads (R36, R39), and `DEC` after `ENC` (R42). -/

theorem execDec_of_lt {n : Nat} (hn : n < 17) (s : State) : execDec n s = .next (s.raise .truncatedBuffer) := if_pos hn

/-- Settles O23: below 17 `DEC` raises at once, from 17 on two truthful counts read the same 17 bytes
(`execDec_sameResult_of_truthful`), and `DEC` only delivers. -/
theorem decReadsOffsetsZeroToSixteenOnly : Obligations.DecReadsOffsetsZeroToSixteenOnly := by
  refine ⟨fun n s s' hn => ?_, fun n n' s s' hn hn' hbytes hs hs' => ?_, fun n s t h => ?_⟩
  · rw [exec_dec, exec_dec, execDec_of_lt hn, execDec_of_lt hn, sameResult_next, raise_delivered, raise_delivered]
  · exact execDec_sameResult_of_truthful hn hn' hbytes hs hs'
  · obtain ⟨d, rfl⟩ := exec_next_of_not_enc (i := .dec n) nofun h
    exact deliver_mem s d

/-- `DEC` with a truthful count on a buffer that holds a record delivers it (R91). -/
theorem execDec_of_holdsRecord {n : Nat} {s : State} {r : StatusRecord} (hn : 17 ≤ n) (hcount : s.CountTruthful n)
    (hr : s.HoldsRecord r) : execDec n s = .next (s.deliver (.record r)) := by
  have hpresent : ¬ s.declaredPresent n = false := by simp [declaredPresent_iff, hcount]
  rw [execDec, if_neg (Nat.not_lt.2 hn), if_neg hpresent, hr.kp, hr.kd, hr.ki, hr.delay, hr.flag]
  simp [State.decodeFields]

/-- A count is truthful after `ENC` when the trailing bytes it declares were present before (R39, R134). -/
theorem exec_enc_countTruthful {r : StatusRecord} {n : Nat} {s t : State} (h : exec (.enc r) s = .next t)
    (htrail : ∀ k, 17 ≤ k → k < n → (s.handedByte k).isSome = true) : t.CountTruthful n := by
  intro k hkn
  by_cases hk : k < 17
  · rw [exec_enc_handedByte h hk, List.getElem?_eq_getElem (by simpa using hk), Option.isSome_some]
  · rw [exec_enc_handedByte_beyond h (by omega)]
    exact htrail k (by omega) hkn

/-- `DEC` after `ENC` on the same buffer delivers the record (R42, R92). -/
theorem execDec_after_enc {r : StatusRecord} {n : Nat} {s t : State} (h : exec (.enc r) s = .next t) (hn : 17 ≤ n)
    (htrail : ∀ k, 17 ≤ k → k < n → (s.handedByte k).isSome = true) :
    execDec n t = .next (t.deliver (.record r)) :=
  execDec_of_holdsRecord hn (exec_enc_countTruthful h htrail) (exec_enc_holdsRecord h)

theorem exec_enc_of_room (r : StatusRecord) {s : State} (hroom : 17 ≤ s.buf.size) : ∃ t, exec (.enc r) s = .next t := by
  obtain ⟨-, h⟩ | ⟨hshort, -⟩ := execEnc_cases r s
  · exact ⟨_, h⟩
  · omega

/-- What gives the same result as a completed outcome completes with the same delivery. -/
theorem exists_next_of_sameResult {o : Host.Outcome State Fault Refusal} {t : State} (h : SameResult o (.next t)) :
    ∃ u, o = .next u ∧ u.delivered = t.delivered := by
  cases o with
  | next u => exact ⟨u, rfl, h⟩
  | fault r => exact h.elim
  | refused r => exact h.elim

@[simp] theorem decode_encode_enc (r : StatusRecord) : decode (encode (.enc r)) = .instr (.enc r) := by
  simp [decode, encode, decodeFn2, InPorts.zero]

@[simp] theorem decode_encode_dec (n : Nat) : decode (encode (.dec n)) = .instr (.dec n) := rfl

/-- A step that presents an instruction runs it on the buffer presented (R7). -/
theorem step_of_instr {s : State} {e : Encoded} {buf : Handed} {rest : List CallerEvent} {i : Instr}
    (hpending : s.pending = .present e buf :: rest) (hdecode : decode e = .instr i) :
    step s = exec i (s.accept buf rest) :=
  (step_present hpending).trans (runEncoded_of_instr _ hdecode)

theorem core_run_two {s t u : State} (hst : step s = .next t) (htu : step t = .next u) : core.run 2 s = .next u := by
  have hst' : core.step s = .next t := hst
  have htu' : core.step t = .next u := htu
  simp only [Host.Core.run, hst', htu']

/-- Settles O34: `ENC` leaves the record in the buffer, and the second step hands that same buffer to `DEC`, which ends
there as it would on the state `ENC` left (`exec_sameResult_of_sameHanded`). -/
theorem decAfterEncReadsWhatEncProduced : Obligations.DecAfterEncReadsWhatEncProduced := by
  intro r n s buf rest hpending hroom hn htrail
  have henc := step_of_instr hpending (decode_encode_enc r)
  set accepted := s.accept buf (.present (encode (.dec n)) buf :: rest) with haccepted
  obtain ⟨t, ht⟩ := exec_enc_of_room r (s := accepted) hroom
  have htrail' (k : Nat) (h17 : 17 ≤ k) (hkn : k < n) : (accepted.handedByte k).isSome = true := by
    obtain ⟨hsize, hread⟩ := htrail k h17 hkn
    simpa [haccepted, State.handedByte, hsize] using hread
  have hdec := step_of_instr (exec_next_pending ht) (decode_encode_dec n)
  have hbuf : buf = t.buf := (exec_enc_buf ht).symm
  have hsame : SameResult (exec (.dec n) (t.accept buf rest)) (exec (.dec n) t) :=
    exec_sameResult_of_sameHanded (.dec n) (sameHanded_of_mem_buf rfl hbuf)
  rw [exec_dec n t, execDec_after_enc ht hn htrail'] at hsame
  obtain ⟨u, hu, hdelivered⟩ := exists_next_of_sameResult hsame
  exact ⟨u, core_run_two (henc.trans ht) (hdec.trans hu), hdelivered, exec_next_pending hu⟩

end Sys2Proof.Machine

namespace Sys2Proof.Machine

/-! The decoder of each format, case by case (R56, R57, R59). -/

@[simp] theorem decode_cmd8_wireValue (op : Opcode) : decode (.cmd8 (wireValue op)) = .instr (commandOf op) := by
  rw [decode, decodeCmd8, opcodeFromByte_wireValue]

/-- The bytes from 0x0A on are reserved (R57). -/
theorem opcodeFromByte_eq_none_iff_ge {b : Byte} : opcodeFromByte b = none ↔ 0x0A#8 ≤ b := by
  have hnext : 0x09#8 < b ↔ 0x0A#8 ≤ b := by bv_omega
  exact opcodeFromByte_eq_none.trans hnext

theorem decode_cmd8_of_ge {b : Byte} (h : 0x0A#8 ≤ b) : decode (.cmd8 b) = .rejected .unknownOpcode := by
  rw [decode, decodeCmd8, opcodeFromByte_eq_none_iff_ge.2 h]

/-- A `CMD8` byte decodes to an instruction only as the wire value of an opcode, whose command that is. -/
theorem exists_opcode_of_decode_cmd8 {b : Byte} {i : Instr} (h : decode (.cmd8 b) = .instr i) :
    ∃ op, wireValue op = b ∧ commandOf op = i := by
  cases hb : opcodeFromByte b with
  | some op =>
    obtain rfl := wireValue_of_opcodeFromByte hb
    rw [decode_cmd8_wireValue] at h
    exact ⟨op, rfl, Decoded.instr.inj h⟩
  | none =>
    rw [decode_cmd8_of_ge (opcodeFromByte_eq_none_iff_ge.1 hb)] at h
    cases h

section Fn2

variable {p : InPorts}

theorem decodeFn2_opdec (h : p.fn = 0#2) : decodeFn2 p = .instr (.opdec p.cmdByte) := by
  simp [decodeFn2, h]

theorem decodeFn2_openc (h : p.fn = 1#2) :
    decodeFn2 p = if p.tagIn ≤ 9#4 then .instr (.openc p.tagIn) else .rejected .notAnOpcode := by
  simp [decodeFn2, h]

theorem decodeFn2_enc (h : p.fn = 2#2) :
    decodeFn2 p = .instr (.enc ⟨p.kpIn, p.kdIn, p.kiIn, p.delayIn, flagOfBit p.feIn⟩) := by
  simp [decodeFn2, h]

theorem decodeFn2_dec (h : p.fn = 3#2) : decodeFn2 p = .instr (.dec p.lenIn) := by
  simp [decodeFn2, h]

end Fn2

/-- All four selects are used (R59). -/
theorem select_cases (fn : BitVec 2) : fn = 0#2 ∨ fn = 1#2 ∨ fn = 2#2 ∨ fn = 3#2 := by
  revert fn
  decide

/-! Encoding and decoding (R50, R51, R59). -/

@[simp] theorem encode_commandOf (op : Opcode) : encode (commandOf op) = .cmd8 (wireValue op) := by
  cases op <;> rfl

theorem wellFormed_commandOf (op : Opcode) : (commandOf op).WellFormed := by
  cases op <;> rfl

theorem wellFormed_openc {tag : BitVec 4} : (Instr.openc tag).WellFormed ↔ tag ≤ 9#4 := decide_eq_true_iff

theorem decode_encode_openc {tag : BitVec 4} (h : tag ≤ 9#4) : decode (encode (.openc tag)) = .instr (.openc tag) :=
  (decodeFn2_openc rfl).trans (if_pos h)

theorem decode_encode {i : Instr} (h : i.WellFormed) : decode (encode i) = .instr i := by
  cases i with
  | opdec b => exact decodeFn2_opdec rfl
  | openc tag => exact decode_encode_openc (wellFormed_openc.1 h)
  | enc r => exact decode_encode_enc r
  | dec n => exact decode_encode_dec n
  | _ => rfl

/-- Ports that agree on the select and on what it uses decode alike: no unused port is read (R23, R59). -/
theorem decodeFn2_congr {p q : InPorts} (h : SameUsedBits (.fn2 p) (.fn2 q)) : decodeFn2 p = decodeFn2 q := by
  obtain ⟨hfn, hopdec, hopenc, henc, hdec⟩ := h
  obtain hp | hp | hp | hp := select_cases p.fn
  · rw [decodeFn2_opdec hp, decodeFn2_opdec (hfn ▸ hp), hopdec hp]
  · rw [decodeFn2_openc hp, decodeFn2_openc (hfn ▸ hp), hopenc hp]
  · obtain ⟨hkp, hkd, hki, hdelay, hfe⟩ := henc hp
    rw [decodeFn2_enc hp, decodeFn2_enc (hfn ▸ hp), hkp, hkd, hki, hdelay, hfe]
  · rw [decodeFn2_dec hp, decodeFn2_dec (hfn ▸ hp), hdec hp]

theorem decode_congr {e e' : Encoded} (h : SameUsedBits e e') : decode e = decode e' := by
  cases e with
  | cmd8 b =>
    cases e' with
    | cmd8 c => exact congrArg decodeCmd8 h
    | fn2 q => exact h.elim
  | fn2 p =>
    cases e' with
    | cmd8 c => exact h.elim
    | fn2 q => exact decodeFn2_congr h

/-- What ports decode to lies in its domain, and its encoding repeats every port it uses: no used bit is dropped. -/
theorem usedBits_of_decodeFn2 {p : InPorts} {i : Instr} (h : decodeFn2 p = .instr i) :
    i.WellFormed ∧ SameUsedBits (.fn2 p) (encode i) := by
  obtain hp | hp | hp | hp := select_cases p.fn
  · cases (decodeFn2_opdec hp).symm.trans h
    exact ⟨rfl, by simp [SameUsedBits, encode, InPorts.zero, hp]⟩
  · rw [decodeFn2_openc hp] at h
    split at h
    next htag =>
      cases h
      exact ⟨wellFormed_openc.2 htag, by simp [SameUsedBits, encode, InPorts.zero, hp]⟩
    next => cases h
  · cases (decodeFn2_enc hp).symm.trans h
    exact ⟨rfl, by simp [SameUsedBits, encode, InPorts.zero, hp]⟩
  · cases (decodeFn2_dec hp).symm.trans h
    exact ⟨rfl, by simp [SameUsedBits, encode, InPorts.zero, hp]⟩

theorem usedBits_of_decode {e : Encoded} {i : Instr} (h : decode e = .instr i) :
    i.WellFormed ∧ SameUsedBits e (encode i) := by
  cases e with
  | cmd8 b =>
    obtain ⟨op, rfl, rfl⟩ := exists_opcode_of_decode_cmd8 h
    rw [encode_commandOf]
    exact ⟨wellFormed_commandOf op, rfl⟩
  | fn2 p => exact usedBits_of_decodeFn2 h

/-- Settles O5: what a presentation decodes to has its used bits (`usedBits_of_decode`), and conversely a presentation
with the used bits of an encoding decodes as the encoding does (`decode_congr`, `decode_encode`). -/
theorem decodeReadsExactlyTheUsedBits : Obligations.DecodeReadsExactlyTheUsedBits := by
  intro e i
  refine ⟨usedBits_of_decode, fun ⟨hwf, hbits⟩ => ?_⟩
  calc
    decode e = decode (encode i) := decode_congr hbits
    _ = .instr i := decode_encode hwf

/-- Settles O4: `decode_encode`, one case per format and operation. -/
theorem decodeOfEncodeIsTheInstruction : Obligations.DecodeOfEncodeIsTheInstruction := fun _ h => decode_encode h

/-- Settles O3: each word is the table's for its opcode, lies past the table, or carries the operands its select uses. -/
theorem wordsOfTheTablesDecode : Obligations.WordsOfTheTablesDecode :=
  ⟨decode_cmd8_wireValue .setSampleCount, decode_cmd8_wireValue .launchAq, decode_cmd8_wireValue .getStatus,
    decode_cmd8_wireValue .setFeedback, decode_cmd8_of_ge (by decide), decode_cmd8_of_ge (by decide),
    decodeFn2_opdec rfl, decodeFn2_openc rfl, decodeFn2_openc rfl, decodeFn2_enc rfl, decodeFn2_dec rfl⟩

/-! The reserved command bytes (R57, R111). -/

/-- A step that presents a reserved command byte returns the error and is not stopped (R57, R114). -/
theorem step_of_reserved_cmd8 {s : State} {b : Byte} {buf : Handed} {rest : List CallerEvent}
    (hpending : s.pending = .present (.cmd8 b) buf :: rest) (hb : 0x0A#8 ≤ b) :
    step s = .next ((s.accept buf rest).raise .unknownOpcode) := by
  rw [step_present hpending, runEncoded, decode_cmd8_of_ge hb]

/-- The status code of an error on its port (R110). -/
theorem raise_ports_status (s : State) (e : Error) : (s.raise e).ports.status = errorCode e := by
  rw [ports_eq (raise_delivered s e), drivePorts_error_status]

/-- Settles O2: a reserved byte is no opcode's, so the step raises the error (`step_of_reserved_cmd8`). -/
theorem unknownCommandByteIsAnErrorResult : Obligations.UnknownCommandByteIsAnErrorResult :=
  fun _ _ _ _ hpending hb => ⟨_, step_of_reserved_cmd8 hpending hb, raise_ports_status _ .unknownOpcode, rfl⟩

theorem parseCommandByte_delivered_unknownOpcode (s : State) (b : Byte) :
    (s.parseCommandByte b).delivered = .error .unknownOpcode ↔ 0x0A#8 ≤ b := by
  rw [← opcodeFromByte_eq_none_iff_ge]
  obtain ⟨op, hb, hparse⟩ | ⟨hb, hparse⟩ := parseCommandByte_cases s b
  · simp [hparse, hb]
  · simp [hparse, hb]

theorem length_filter_le_range (k n : Nat) : ((List.range n).filter fun m => decide (k ≤ m)).length = n - k := by
  rw [← List.Ico.zero_bot, List.Ico.filter_le, List.Ico.length, Nat.zero_max]

/-- How many bytes there are from `k` on. -/
theorem length_filter_byte_ge (k : Byte) :
    ((List.range 256).filter fun n => decide (k ≤ BitVec.ofNat 8 n)).length = 256 - k.toNat := by
  rw [← length_filter_le_range]
  refine congrArg List.length (List.filter_congr fun n hn => ?_)
  have hn : n < 256 := List.mem_range.1 hn
  simp [BitVec.le_def, Nat.mod_eq_of_lt hn]

/-- Settles O9: `OPDEC` is the parse of the byte, which fails exactly on the bytes past the table. -/
theorem unknownOpcodeExactlyOnTheOtherBytes : Obligations.UnknownOpcodeExactlyOnTheOtherBytes := by
  refine ⟨fun b s => ?_, length_filter_byte_ge 0x0A#8⟩
  rw [exec_opdec, ← parseCommandByte_delivered_unknownOpcode s b]
  simp

/-! The boolean byte (R55). -/

@[simp] theorem decodeFields_boolByte (s : State) (kp kd ki delay : Word32) (f : Bool) :
    s.decodeFields kp kd ki delay (boolByte f) = s.deliver (.record ⟨kp, kd, ki, delay, f⟩) := by
  rw [State.decodeFields, boolOfByte_boolByte]

theorem decodeFields_of_reserved (s : State) (kp kd ki delay : Word32) {b : Byte} (hb : 0x02#8 ≤ b) :
    s.decodeFields kp kd ki delay b = s.raise .invalidBooleanEncoding := by
  rw [State.decodeFields, boolOfByte_eq_none.2 hb]

/-- The flag of a record that the end of `DEC` delivers is that of its byte. -/
theorem decodeFields_record (s : State) (kp kd ki delay : Word32) {b : Byte} {f : Bool} (hb : b = boolByte f) :
    ∃ r, (s.decodeFields kp kd ki delay b).delivered = .record r ∧ r.feedbackEnabled = f := by
  rw [hb, decodeFields_boolByte]
  exact ⟨_, rfl, rfl⟩

/-- Settles O22: `ENC` places `boolByte` of the flag at offset 16 (`exec_enc_holdsRecord`), and `DEC` ends with the flag
whose byte stands there (`decodeFields_record`) or with the error (`decodeFields_of_reserved`). -/
theorem booleanByteIsZeroOrOne : Obligations.BooleanByteIsZeroOrOne := by
  refine ⟨fun r s t h => (exec_enc_holdsRecord h).flag, fun n s B hn hB => ?_⟩
  refine ⟨_, execDec_of_holds hn hB, decodeFields_record s _ _ _ _ (f := false),
    decodeFields_record s _ _ _ _ (f := true), fun hreserved => ?_⟩
  rw [decodeFields_of_reserved s _ _ _ _ hreserved, raise_delivered]

end Sys2Proof.Machine

namespace Sys2Proof.Machine

/-! What each instruction leaves is canonical memory and a legal result (R55, R71, R93). -/

theorem parseCommandByte_inv {s : State} (b : Byte) (hm : s.mem.wf) : (s.parseCommandByte b).Inv := by
  obtain ⟨op, -, hparse⟩ | ⟨-, hparse⟩ := parseCommandByte_cases s b
  · rw [hparse]
    exact inv_deliver hm (legal_opcode op)
  · rw [hparse]
    exact inv_raise .unknownOpcode hm

theorem decodeFields_inv {s : State} (kp kd ki delay : Word32) (fe : Byte) (hm : s.mem.wf) :
    (s.decodeFields kp kd ki delay fe).Inv := by
  obtain ⟨f, -, hfields⟩ | ⟨-, hfields⟩ := decodeFields_cases s fe kp kd ki delay
  · rw [hfields]
    exact inv_deliver hm (legal_record _)
  · rw [hfields]
    exact inv_raise .invalidBooleanEncoding hm

theorem exec_openc_inv {tag : BitVec 4} {s t : State} (hm : s.mem.wf) (h : exec (.openc tag) s = .next t) : t.Inv := by
  obtain ⟨op, -, hexec⟩ | ⟨-, hexec⟩ := execOpenc_cases tag s
  · cases hexec.symm.trans h
    exact inv_deliver hm (legal_wireValue op)
  · cases hexec.symm.trans h

theorem exec_enc_inv {r : StatusRecord} {s t : State} (hm : s.mem.wf) (h : exec (.enc r) s = .next t) : t.Inv := by
  obtain ⟨-, rfl⟩ := exec_enc_next h
  exact inv_deliver (storeHanded_wf (encodeRecord r) hm) (legal_encodeRecord r)

theorem exec_dec_inv {n : Nat} {s t : State} (hm : s.mem.wf) (h : exec (.dec n) s = .next t) : t.Inv := by
  obtain ⟨-, hexec⟩ | ⟨-, -, kp, kd, ki, delay, fe, -, -, -, -, -, hexec⟩ | ⟨-, -, hexec⟩ := execDec_cases n s
  · cases hexec.symm.trans h
    exact inv_raise .truncatedBuffer hm
  · cases hexec.symm.trans h
    exact decodeFields_inv kp kd ki delay fe hm
  · cases hexec.symm.trans h

/-- An instruction meets the invariant from canonical memory, whatever was delivered before (R10). -/
theorem exec_next_inv {i : Instr} {s t : State} (hm : s.mem.wf) (h : exec i s = .next t) : t.Inv := by
  cases i with
  | openc tag => exact exec_openc_inv hm h
  | enc r => exact exec_enc_inv hm h
  | dec n => exact exec_dec_inv hm h
  | _ =>
    cases h
    exact parseCommandByte_inv _ hm

theorem runEncoded_next_inv {e : Encoded} {s t : State} (hm : s.mem.wf) (h : runEncoded e s = .next t) : t.Inv := by
  obtain ⟨i, -, hrun⟩ | ⟨-, hrun⟩ | ⟨-, hrun⟩ := runEncoded_cases e s
  · exact exec_next_inv hm (hrun.symm.trans h)
  · cases hrun.symm.trans h
    exact inv_raise .unknownOpcode hm
  · cases hrun.symm.trans h

/-- Settles O41, by the caller's next act: a presentation (`runEncoded_next_inv`), the caller's own store
(`callerStore_wf`), or an act that delivers nothing and leaves memory as it is. -/
theorem everyStepKeepsTheInvariant : Obligations.EveryStepKeepsTheInvariant := by
  rintro s t ⟨hm, -⟩ h
  match hp : s.pending with
  | [] =>
    cases (step_idle hp).symm.trans h
    exact inv_deliver hm legal_nothing
  | .present e buf :: rest =>
    exact runEncoded_next_inv (s := s.accept buf rest) hm ((step_present hp).symm.trans h)
  | .callerStores a bs :: rest =>
    cases (step_callerStores hp).symm.trans h
    exact ⟨callerStore_wf (s := s.advance rest) a bs hm, legal_nothing⟩
  | .reset :: rest =>
    cases (step_reset hp).symm.trans h
    exact inv_deliver hm legal_nothing

/-! `OPDEC` and `OPENC`: an opcode for each byte and tag of the table, and none past it (R15, R70, R71). -/

theorem exists_opcode_of_le {b : Byte} (hb : b ≤ 0x09#8) : ∃ op, wireValue op = b := by
  cases hop : opcodeFromByte b with
  | some op => exact ⟨op, wireValue_of_opcodeFromByte hop⟩
  | none => exact absurd hb (BitVec.not_le.2 (opcodeFromByte_eq_none.1 hop))

theorem exists_opcode_of_tag_le {tag : BitVec 4} (htag : tag ≤ 0x9#4) : ∃ op, opcodeTag op = tag := by
  cases hop : opcodeOfTag tag with
  | some op => exact ⟨op, opcodeOfTag_eq_some.1 hop⟩
  | none => exact absurd htag (BitVec.not_le.2 (opcodeOfTag_eq_none.1 hop))

/-- The tags from 0xA on are past the last opcode's (R15). -/
theorem tag_ge_iff {tag : BitVec 4} : 0xA#4 ≤ tag ↔ 0x9#4 < tag := by bv_omega

/-- The tag of an opcode is the low half of its wire value (R15, R70). -/
theorem opcodeTag_eq_extractLsb' (op : Opcode) : opcodeTag op = (wireValue op).extractLsb' 0 4 :=
  BitVec.setWidth_eq_extractLsb' (by decide)

/-- The wire value of an opcode is its tag with four zeros above (R15, R71). -/
theorem wireValue_eq_append (op : Opcode) : wireValue op = 0#4 ++ opcodeTag op :=
  (setWidth_opcodeTag op).symm.trans (BitVec.setWidth_eq_append (by decide))

theorem exec_opdec_wireValue (op : Opcode) (s : State) :
    exec (.opdec (wireValue op)) s = .next (s.deliver (.opcode op)) := by
  rw [exec_opdec, parseCommandByte_wireValue]

theorem exec_opdec_of_ge {b : Byte} (hb : 0x0A#8 ≤ b) (s : State) :
    exec (.opdec b) s = .next (s.raise .unknownOpcode) := by
  rw [exec_opdec, State.parseCommandByte, opcodeFromByte_eq_none_iff_ge.2 hb]

theorem exec_openc_opcodeTag (op : Opcode) (s : State) :
    exec (.openc (opcodeTag op)) s = .next (s.deliver (.byte (wireValue op))) := by
  rw [exec_openc, execOpenc, opcodeOfTag_opcodeTag]

theorem exec_openc_of_ge {tag : BitVec 4} (htag : 0xA#4 ≤ tag) (s : State) :
    exec (.openc tag) s = .refused .notAnOpcode := by
  rw [exec_openc, execOpenc, opcodeOfTag_eq_none.2 (tag_ge_iff.1 htag)]

theorem exec_commandOf_eq_deliver (op : Opcode) (s : State) :
    exec (commandOf op) s = .next (s.deliver (.opcode op)) := by
  rw [exec_commandOf, parseCommandByte_wireValue]

theorem decodeFn2_openc_of_le {p : InPorts} (hfn : p.fn = 1#2) (htag : p.tagIn ≤ 0x9#4) :
    decodeFn2 p = .instr (.openc p.tagIn) :=
  (decodeFn2_openc hfn).trans (if_pos htag)

theorem decodeFn2_openc_of_ge {p : InPorts} (hfn : p.fn = 1#2) (htag : 0xA#4 ≤ p.tagIn) :
    decodeFn2 p = .rejected .notAnOpcode :=
  (decodeFn2_openc hfn).trans (if_neg (BitVec.not_le.2 (tag_ge_iff.1 htag)))

/-- A step that presents `OPENC` with a tag that is no opcode is refused (R71, U8). -/
theorem step_of_openc_ge {s : State} {p : InPorts} {buf : Handed} {rest : List CallerEvent}
    (hpending : s.pending = .present (.fn2 p) buf :: rest) (hfn : p.fn = 1#2) (htag : 0xA#4 ≤ p.tagIn) :
    step s = .refused .notAnOpcode := by
  rw [step_present hpending, runEncoded, decode, decodeFn2_openc_of_ge hfn htag]

theorem deliver_ports (s : State) (d : Delivered) :
    (s.deliver d).ports = drivePorts (Config.freeOutputs (s.draw + 1)) d := ports_eq (deliver_delivered s d)

/-- Settles O8: a byte up to 0x09 is an opcode's wire value (`exec_opdec_wireValue`), and every other raises the error
(`exec_opdec_of_ge`). -/
theorem opdecParsesEveryByte : Obligations.OpdecParsesEveryByte := by
  refine fun b s p => ⟨decodeFn2_opdec, fun hb => ?_, fun hb => ?_⟩
  · obtain ⟨op, rfl⟩ := exists_opcode_of_le hb
    refine ⟨op, _, rfl, exec_opdec_wireValue op s, rfl, ?_, ?_⟩
    · rw [deliver_ports, drivePorts_opcode_status]
    · rw [deliver_ports, drivePorts_opcode_tagOut, opcodeTag_eq_extractLsb']
  · exact ⟨_, exec_opdec_of_ge hb s, rfl, raise_ports_status s .unknownOpcode⟩

/-- Settles O10: a tag up to 9 is an opcode's (`exec_openc_opcodeTag`), and every other is refused by `exec`
(`exec_openc_of_ge`) and by the decoder before it (`step_of_openc_ge`). -/
theorem opencGivesTheWireValue : Obligations.OpencGivesTheWireValue := by
  refine fun tag s p => ⟨decodeFn2_openc_of_le, fun htag => ?_, fun htag => exec_openc_of_ge htag s,
    fun _ _ => step_of_openc_ge⟩
  obtain ⟨op, rfl⟩ := exists_opcode_of_tag_le htag
  refine ⟨op, _, rfl, exec_openc_opcodeTag op s, rfl, ?_, ?_⟩
  · rw [deliver_ports, drivePorts_byte_status]
  · rw [deliver_ports, drivePorts_byte_byteOut, wireValue_eq_append]

/-- Settles O11: from any state `OPDEC` of a wire value delivers the opcode and `OPENC` of its tag the wire value. -/
theorem opdecAndOpencAreInverse : Obligations.OpdecAndOpencAreInverse := by
  refine ⟨fun b s hb => ?_, fun op s => ?_⟩
  · obtain ⟨op, rfl⟩ := exists_opcode_of_le hb
    exact ⟨op, _, _, exec_opdec_wireValue op s, deliver_delivered _ _, exec_openc_opcodeTag op _, deliver_delivered _ _⟩
  · exact ⟨wireValue op, _, _, exec_openc_opcodeTag op s, deliver_delivered _ _, wireValue_le op,
      exec_opdec_wireValue op _, deliver_delivered _ _⟩

/-! The frame of what stores nothing (R84), and servicing `GET_STATUS` (R82, R85). -/

/-- Settles O32: an instruction that is not `ENC` only delivers (`exec_next_of_not_enc`). -/
theorem nonStoringInstructionsOnlyDeliver : Obligations.NonStoringInstructionsOnlyDeliver := by
  intro i s t hi h
  obtain ⟨d, rfl⟩ := exec_next_of_not_enc hi h
  exact ⟨fun a => by rw [deliver_mem], rfl⟩

/-- A buffer with the bytes of a record at offsets 0 to 16 decodes to it: `DEC` ends there as on the buffer that `ENC`
filled (R36, R92). -/
theorem exec_dec_of_encoded_bytes {r : StatusRecord} {s t host : State} (h : exec (.enc r) s = .next t)
    (hbytes : ∀ k, k < 17 → host.handedByte k = (encodeRecord r)[k]?) :
    ∃ v, exec (.dec 17) host = .next v ∧ v.delivered = .record r := by
  have htrail (k : Nat) (h17 : 17 ≤ k) (hk : k < 17) : (s.handedByte k).isSome = true := absurd hk (Nat.not_lt.2 h17)
  have hsameBytes (k : Nat) (hk : k < 17) : host.handedByte k = t.handedByte k :=
    (hbytes k hk).trans (exec_enc_handedByte h hk).symm
  have ht : t.CountTruthful 17 := exec_enc_countTruthful h htrail
  have hhost : host.CountTruthful 17 := fun k hk => hsameBytes k hk ▸ ht k hk
  have hsame := execDec_sameResult_of_truthful (le_refl 17) (le_refl 17) hsameBytes hhost ht
  rw [execDec_after_enc h (le_refl 17) htrail] at hsame
  exact exists_next_of_sameResult hsame

/-- Settles O35: the command's step only delivers its opcode, so `ENC` is next on the list and fills the response
buffer, and a host with those bytes decodes the snapshot (`exec_dec_of_encoded_bytes`). -/
theorem getStatusResponseReachesTheHost : Obligations.GetStatusResponseReachesTheHost := by
  intro snapshot s request response rest hpending hroom
  have hrequest := (step_of_instr hpending (decode_cmd8_wireValue .getStatus)).trans (exec_commandOf_eq_deliver _ _)
  set recognised := (s.accept request (.present (encode (.enc snapshot)) response :: rest)).deliver (.opcode .getStatus)
  have hnext : recognised.pending = .present (encode (.enc snapshot)) response :: rest := rfl
  have hresponse := step_of_instr hnext (decode_encode_enc snapshot)
  obtain ⟨u, hu⟩ := exec_enc_of_room snapshot (s := recognised.accept response rest) hroom
  refine ⟨recognised, u, encodeRecord snapshot, hrequest, rfl, rfl, hresponse.trans hu, exec_enc_delivered hu,
    encodeRecord_length snapshot, fun k hk => ?_, fun host hhost => exec_dec_of_encoded_bytes hu hhost⟩
  rw [exec_enc_mem hu, accept_buf, Memory.read_writeBytes_inside _ _ (encodeRecord snapshot) hk]

/-! The ten commands (R74 to R83). -/

/-- The four clauses of O7 for one opcode (R74 to R83, R84). -/
theorem command_recognised_and_given_back (s : State) (op : Opcode) :
    decode (.cmd8 (wireValue op)) = .instr (commandOf op) ∧
      exec (commandOf op) s = .next (s.deliver (.opcode op)) ∧
      exec (.opdec (wireValue op)) s = .next (s.deliver (.opcode op)) ∧
      exec (.openc (opcodeTag op)) s = .next (s.deliver (.byte (wireValue op))) :=
  ⟨decode_cmd8_wireValue op, exec_commandOf_eq_deliver op s, exec_opdec_wireValue op s, exec_openc_opcodeTag op s⟩

/-- Settles O7: `command_recognised_and_given_back`, at each of the ten opcodes. -/
theorem commandsAreRecognisedAndGivenBack : Obligations.CommandsAreRecognisedAndGivenBack := fun s =>
  have command := command_recognised_and_given_back s
  ⟨command .setSampleCount, command .setAcqSampleRate, command .setInputSpeed, command .launchAq,
    command .setFeedbackSampleRate, command .setP, command .setI, command .setD, command .getStatus,
    command .setFeedback⟩

end Sys2Proof.Machine

namespace Sys2Proof.Machine

/-! The record of 17 bytes, and that `encodeRecord` is its inverse (R33, R90, R91). -/

/-- The record `DEC` reads from bytes at offsets 0 to 16 (R91, `execDec_of_legal_flag`). -/
def recordOfBytes (B : Nat → Byte) : StatusRecord where
  kp := leWord (B 0) (B 1) (B 2) (B 3)
  kd := leWord (B 4) (B 5) (B 6) (B 7)
  ki := leWord (B 8) (B 9) (B 10) (B 11)
  feedbackLoopDelay := leWord (B 12) (B 13) (B 14) (B 15)
  feedbackEnabled := decide (B 16 = 0x01#8)

/-- A legal boolean byte is the byte of its flag (R55). -/
theorem boolByte_decide {b : Byte} (hb : b = 0x00#8 ∨ b = 0x01#8) : boolByte (decide (b = 0x01#8)) = b := by
  obtain rfl | rfl := hb
  · rfl
  · rfl

/-- The flag of a legal boolean byte, on its port, is the byte's lowest bit (R55, R91). -/
theorem bitOfFlag_decide {b : Byte} (hb : b = 0x00#8 ∨ b = 0x01#8) :
    bitOfFlag (decide (b = 0x01#8)) = b.extractLsb' 0 1 := by
  obtain rfl | rfl := hb
  · rfl
  · rfl

/-- Reading a record's own bytes gives the record (R92). -/
theorem recordOfBytes_encodeRecord (r : StatusRecord) :
    recordOfBytes (fun k => (encodeRecord r)[k]?.getD 0#8) = r := by
  have hflag : decide (boolByte r.feedbackEnabled = 0x01#8) = r.feedbackEnabled := by
    cases r.feedbackEnabled
    · rfl
    · rfl
  simp [recordOfBytes, encodeRecord_eq, hflag]

/-- The bytes of the record that legal bytes give are those bytes (R96). -/
theorem encodeRecord_recordOfBytes {B : Nat → Byte} (hflag : B 16 = 0x00#8 ∨ B 16 = 0x01#8) :
    encodeRecord (recordOfBytes B) = (List.range 17).map B := by
  simp only [encodeRecord, recordOfBytes, leBytes_leWord, boolByte_decide hflag]
  rfl

/-- Records with the same bytes are the same record (R96). -/
theorem encodeRecord_injective : Function.Injective encodeRecord := fun r r' h => calc
  r = recordOfBytes (fun k => (encodeRecord r)[k]?.getD 0#8) := (recordOfBytes_encodeRecord r).symm
  _ = recordOfBytes (fun k => (encodeRecord r')[k]?.getD 0#8) := by rw [h]
  _ = r' := recordOfBytes_encodeRecord r'

section Holds

variable {n : Nat} {s : State} {B : Nat → Byte} (hn : 17 ≤ n) (hB : s.Holds n B)
include hn hB

/-- `DEC` on declared bytes with a legal flag delivers their record (R91). -/
theorem execDec_of_legal_flag (hflag : B 16 = 0x00#8 ∨ B 16 = 0x01#8) :
    execDec n s = .next (s.deliver (.record (recordOfBytes B))) := by
  have h := execDec_of_holds hn hB
  rwa [← boolByte_decide hflag, decodeFields_boolByte] at h

/-- `DEC` on declared bytes with a reserved flag returns the error (R55, R91). -/
theorem execDec_of_reserved_flag (hflag : 0x02#8 ≤ B 16) :
    execDec n s = .next (s.raise .invalidBooleanEncoding) := by
  rw [execDec_of_holds hn hB, decodeFields_of_reserved s _ _ _ _ hflag]

/-- A buffer that holds 17 bytes has room for them (R41). -/
theorem room_of_holds : 17 ≤ s.buf.size := lt_size_of_handedByte (hB 16 hn)

end Holds

/-! The round trips (R92, R96). -/

/-- Settles O25: with room `ENC` completes (`exec_enc_of_room`), and `DEC` after it delivers the record from the buffer
`ENC` filled (`execDec_after_enc`). -/
theorem decOfEncGivesTheRecordBack : Obligations.DecOfEncGivesTheRecordBack := by
  intro r n s hroom hn htrail
  obtain ⟨t, ht⟩ := exec_enc_of_room r hroom
  exact ⟨t, _, ht, execDec_after_enc ht hn htrail, deliver_delivered _ _, deliver_mem _ _⟩

/-- Writing bytes over themselves leaves canonical memory as it was, as data. -/
theorem Memory.writeBytes_eq_self {m : Memory} {a : Nat} {bs : List Byte} (hm : m.wf)
    (h : ∀ k, k < bs.length → m.read (a + k) = bs[k]?) : m.writeBytes a bs = m := by
  refine Memory.ext_read (Memory.writeBytes_wf a bs hm) hm fun x => ?_
  by_cases hx : a ≤ x ∧ x < a + bs.length
  · obtain ⟨k, rfl⟩ := Nat.exists_eq_add_of_le hx.1
    have hk : k < bs.length := by omega
    rw [Memory.read_writeBytes_inside m a bs hk, h k hk]
  · exact Memory.read_writeBytes_outside m bs (by omega)

/-- `ENC` of a record whose bytes the handed buffer already holds leaves canonical memory as it was (R96). -/
theorem exec_enc_mem_eq_self {r : StatusRecord} {s t : State} (h : exec (.enc r) s = .next t) (hm : s.mem.wf)
    (hbytes : ∀ k, k < 17 → s.handedByte k = (encodeRecord r)[k]?) : t.mem = s.mem := by
  rw [exec_enc_mem h]
  refine Memory.writeBytes_eq_self hm fun k hk => ?_
  have hbyte := hbytes k hk
  rw [List.getElem?_eq_getElem hk] at hbyte ⊢
  exact read_of_handedByte hbyte

/-- Settles O26: `DEC` delivers `recordOfBytes B`, whose encoding is `B` again (`encodeRecord_recordOfBytes`), so `ENC`
writes bytes that already stand there (`exec_enc_mem_eq_self`). -/
theorem encOfDecGivesTheBytesBack : Obligations.EncOfDecGivesTheBytesBack := by
  refine ⟨fun n s B hm hn hB hflag => ?_, fun r r' s t t' h h' hdelivered => ?_⟩
  · have hencode := encodeRecord_recordOfBytes hflag
    set decoded := s.deliver (.record (recordOfBytes B))
    obtain ⟨u, hu⟩ := exec_enc_of_room (recordOfBytes B) (s := decoded) (room_of_holds hn hB)
    refine ⟨decoded, recordOfBytes B, u, execDec_of_legal_flag hn hB hflag, rfl, hu, ?_, ?_⟩
    · rw [exec_enc_delivered hu, hencode]
    · refine exec_enc_mem_eq_self (s := decoded) hu hm fun k hk => ?_
      rw [hencode, handedByte_deliver, hB k (by omega)]
      simp [hk]
  · rw [exec_enc_delivered h, exec_enc_delivered h'] at hdelivered
    exact encodeRecord_injective (Delivered.bytes.inj hdelivered)

/-! The results of `ENC` and `DEC` with their port views (R90, R91). -/

/-- Settles O12: `ENC` places and delivers `encodeRecord r`, which is the list of the statement (`encodeRecord_eq`) and
packs to the fields in order (`packBytes_encodeRecord`). -/
theorem encDeliversTheSeventeenBytes : Obligations.EncDeliversTheSeventeenBytes := by
  refine fun r s p => ⟨decodeFn2_enc, fun hroom => ?_⟩
  obtain ⟨t, ht⟩ := exec_enc_of_room r hroom
  have hports := ports_eq (exec_enc_delivered ht)
  refine ⟨t, boolByte r.feedbackEnabled, encodeRecord r, rfl, encodeRecord_eq r, ht,
    (exec_enc_next ht).2.trans (deliver_storeHanded _ _ _), ?_, ?_⟩
  · rw [hports, drivePorts_bytes_status]
  · rw [hports, drivePorts_bytes_bufOut, packBytes_encodeRecord]

/-- The record outputs after legal bytes were decoded (R91, R98). -/
theorem deliver_recordOfBytes_ports (s : State) {B : Nat → Byte} (hflag : B 16 = 0x00#8 ∨ B 16 = 0x01#8) :
    (s.deliver (.record (recordOfBytes B))).ports =
      { Config.freeOutputs (s.draw + 1) with
        status := 0#2
        kpOut := leWord (B 0) (B 1) (B 2) (B 3)
        kdOut := leWord (B 4) (B 5) (B 6) (B 7)
        kiOut := leWord (B 8) (B 9) (B 10) (B 11)
        delayOut := leWord (B 12) (B 13) (B 14) (B 15)
        feOut := (B 16).extractLsb' 0 1 } := by
  rw [deliver_ports, ← bitOfFlag_decide hflag]
  rfl

/-- Settles O18: the count is tested first (`execDec_of_lt`), then the flag, which is reserved
(`execDec_of_reserved_flag`) or legal (`execDec_of_legal_flag`). -/
theorem decReturnsARecordOrOneOfTwoErrors : Obligations.DecReturnsARecordOrOneOfTwoErrors := by
  refine fun n s B p => ⟨decodeFn2_dec, fun hn => ?_, fun hn hB hflag => ?_, fun hn hB hflag => ?_⟩
  · exact ⟨_, execDec_of_lt hn s, rfl, raise_ports_status s .truncatedBuffer⟩
  · exact ⟨_, execDec_of_reserved_flag hn hB hflag, rfl, raise_ports_status s .invalidBooleanEncoding⟩
  · refine ⟨_, execDec_of_legal_flag hn hB hflag, rfl, ?_⟩
    rw [deliver_recordOfBytes_ports s hflag]
    exact ⟨rfl, rfl, rfl, rfl, rfl, rfl⟩

/-- The legal boolean bytes are those up to 0x01 (R55). -/
theorem legal_flag_iff_le {b : Byte} : b = 0x00#8 ∨ b = 0x01#8 ↔ b ≤ 0x01#8 := by
  bv_omega

/-- A 32-bit slice is the word of its four bytes (R31, R52). -/
theorem extractLsb'_eq_leWord {w : Nat} (v : BitVec w) (o : Nat) :
    v.extractLsb' o 32 = leWord (v.extractLsb' o 8) (v.extractLsb' (o + 8) 8) (v.extractLsb' (o + 16) 8)
      (v.extractLsb' (o + 24) 8) := by
  rw [leWord, BitVec.extractLsb'_append_extractLsb'_eq_extractLsb' (show o + 24 = o + 16 + 8 from rfl),
    BitVec.extractLsb'_append_extractLsb'_eq_extractLsb' (show o + 16 = o + 8 + 8 from rfl),
    BitVec.extractLsb'_append_extractLsb'_eq_extractLsb' rfl]

/-- The lowest bit of a byte slice. -/
theorem extractLsb'_one_of_byte {w : Nat} (v : BitVec w) (o : Nat) :
    v.extractLsb' o 1 = (v.extractLsb' o 8).extractLsb' 0 1 := by
  refine BitVec.eq_of_getLsbD_eq fun j hj => ?_
  have hj8 : j < 8 := by omega
  simp [hj, hj8]

/-- The bytes of `buf_in` below a declared count are those the buffer holds (R23). -/
theorem bufIn_extractLsb'_of_holds {n : Nat} {s : State} {B : Nat → Byte} (hn : 17 ≤ n) (hB : s.Holds n B) {k : Nat}
    (hk : k < 17) : (s.bufIn n).extractLsb' (8 * k) 8 = B k := by
  have hkn : k < n := by omega
  rw [bufIn_extractLsb' s n hk, bufInByte_declared hkn (hB k hkn)]

/-- Settles O19: the slices of `buf_in` are the held bytes (`bufIn_extractLsb'_of_holds`), and its flag byte is reserved
or legal. -/
theorem decAgreesWithItsPortView : Obligations.DecAgreesWithItsPortView := by
  rintro n s v hn hcount rfl
  obtain ⟨B, hB⟩ := holds_of_truthful hcount
  have byte {k : Nat} (hk : k < 17) := bufIn_extractLsb'_of_holds hn hB hk
  have word (o : Nat) (ho : o + 3 < 17) :
      (s.bufIn n).extractLsb' (8 * o) 32 = leWord (B o) (B (o + 1)) (B (o + 2)) (B (o + 3)) := by
    rw [extractLsb'_eq_leWord, ← byte (k := o) (by omega), ← byte (k := o + 1) (by omega),
      ← byte (k := o + 2) (by omega), ← byte (k := o + 3) ho]
    rfl
  have hflagByte : (s.bufIn n).extractLsb' 128 8 = B 16 := byte (k := 16) (by decide)
  rw [extractLsb'_one_of_byte _ 128, hflagByte]
  by_cases hflag : B 16 ≤ 0x01#8
  · have hlegal := legal_flag_iff_le.2 hflag
    refine ⟨_, execDec_of_legal_flag hn hB hlegal, deliver_mem _ _, fun hlt => absurd hflag (BitVec.not_le.2 hlt),
      fun _ => ?_⟩
    rw [deliver_recordOfBytes_ports s hlegal]
    exact ⟨rfl, (word 0 (by decide)).symm, (word 4 (by decide)).symm, (word 8 (by decide)).symm,
      (word 12 (by decide)).symm, rfl⟩
  · have hreserved : 0x02#8 ≤ B 16 := by bv_omega
    exact ⟨_, execDec_of_reserved_flag hn hB hreserved, raise_mem _ _,
      fun _ => raise_ports_status s .invalidBooleanEncoding, fun hle => absurd hle hflag⟩

/-! An error's outputs (R98), and the count on a narrow port (D12). -/

/-- No error has the code of success (R110). -/
theorem errorCode_ne_zero (e : Error) : errorCode e ≠ 0#2 := by
  cases e <;> decide

/-- Settles O31: whichever error `DEC` delivers, the ports are the free values but for its code on `status`
(`drivePorts`). -/
theorem decErrorLeavesRecordOutputsFree : Obligations.DecErrorLeavesRecordOutputsFree := by
  intro n s t e _ he
  rw [ports_eq he, he]
  exact ⟨nofun, errorCode_ne_zero e, rfl, rfl, rfl, rfl, rfl⟩

/-- Settles O36: a count that fits is presented as itself, and where it does not the presented value is itself a
truthful count of 17 or more (`execDec_sameResult_of_truthful`). The width of 5 bits is what lets a port hold such a
value; the proof needs no more of it than the value. -/
theorem anyLengthPortOfFiveBitsServes : Obligations.AnyLengthPortOfFiveBitsServes := by
  intro w n port s _ hcount hfits hsaturates
  by_cases hlt : n < 2 ^ w
  · rw [hfits hlt]
    exact execDec_sameResult n (fun _ _ => rfl) fun _ => rfl
  · have hport : 17 ≤ port.toNat := hsaturates (Nat.not_lt.1 hlt)
    have hle : port.toNat ≤ n := port.isLt.le.trans (Nat.not_lt.1 hlt)
    have hportCount : s.CountTruthful port.toNat := fun k hk => hcount k (hk.trans_le hle)
    exact execDec_sameResult_of_truthful hport (hport.trans hle) (fun _ _ => rfl) hportCount hcount

end Sys2Proof.Machine

namespace Sys2Proof.Machine

/-! Which operation returns which error, and what an error leaves behind (R110, R112, R113, R116). -/

/-- What was delivered is the success value of an operation (R16). -/
def Delivered.Success : Delivered → Prop
  | .nothing => False
  | .opcode _ => True
  | .byte _ => True
  | .bytes _ => True
  | .record _ => True
  | .error _ => False

/-- The operation that returns an error, and the cause for which it does (R110); `exec_next_cases` ties it to `exec`. -/
def ErrorCause (i : Instr) (s : State) : Error → Prop
  | .unknownOpcode => ∃ b, i = .opdec b ∧ 0x0A#8 ≤ b
  | .truncatedBuffer => ∃ n, i = .dec n ∧ n < 17
  | .invalidBooleanEncoding => ∃ n fe, i = .dec n ∧ 17 ≤ n ∧ s.handedByte 16 = some fe ∧ 0x02#8 ≤ fe

/-- Success has the code 0 on `status` (R110). -/
theorem drivePorts_status_of_success (free : OutPorts) {d : Delivered} (h : d.Success) :
    (drivePorts free d).status = 0#2 := by
  cases d with
  | nothing => exact h.elim
  | error e => exact h.elim
  | _ => rfl

theorem exec_opdec_next_cases {b : Byte} {s t : State} (h : exec (.opdec b) s = .next t) :
    t.delivered.Success ∨ ∃ e, t = s.raise e ∧ ErrorCause (.opdec b) s e := by
  obtain ⟨op, -, hparse⟩ | ⟨hb, hparse⟩ := parseCommandByte_cases s b
  · rw [exec_opdec, hparse] at h
    cases h
    exact .inl trivial
  · rw [exec_opdec, hparse] at h
    cases h
    exact .inr ⟨.unknownOpcode, rfl, b, rfl, opcodeFromByte_eq_none_iff_ge.1 hb⟩

theorem exec_openc_next_success {tag : BitVec 4} {s t : State} (h : exec (.openc tag) s = .next t) :
    t.delivered.Success := by
  obtain ⟨op, -, hexec⟩ | ⟨-, hexec⟩ := execOpenc_cases tag s
  · cases hexec.symm.trans h
    exact trivial
  · cases hexec.symm.trans h

theorem exec_enc_next_success {r : StatusRecord} {s t : State} (h : exec (.enc r) s = .next t) :
    t.delivered.Success := by
  rw [exec_enc_delivered h]
  exact trivial

theorem exec_dec_next_cases {n : Nat} {s t : State} (h : exec (.dec n) s = .next t) :
    t.delivered.Success ∨ ∃ e, t = s.raise e ∧ ErrorCause (.dec n) s e := by
  obtain ⟨hn, hexec⟩ | ⟨hn, -, kp, kd, ki, delay, fe, -, -, -, -, hfe, hexec⟩ | ⟨-, -, hexec⟩ := execDec_cases n s
  · cases hexec.symm.trans h
    exact .inr ⟨.truncatedBuffer, rfl, n, rfl, hn⟩
  · cases hexec.symm.trans h
    obtain ⟨f, -, hfields⟩ | ⟨hreserved, hfields⟩ := decodeFields_cases s fe kp kd ki delay
    · rw [hfields]
      exact .inl trivial
    · exact .inr ⟨.invalidBooleanEncoding, hfields, n, fe, rfl, hn, hfe, boolOfByte_eq_none.1 hreserved⟩
  · cases hexec.symm.trans h

/-- An instruction that completes succeeds, or raises an error for its cause and does nothing else (R110, R114). -/
theorem exec_next_cases {i : Instr} {s t : State} (h : exec i s = .next t) :
    t.delivered.Success ∨ ∃ e, t = s.raise e ∧ ErrorCause i s e := by
  cases i with
  | opdec b => exact exec_opdec_next_cases h
  | openc tag => exact .inl (exec_openc_next_success h)
  | enc r => exact .inl (exec_enc_next_success h)
  | dec n => exact exec_dec_next_cases h
  | _ =>
    -- a command parses its own byte, which the table holds (R84)
    cases h
    exact .inl trivial

section Raised

variable {i : Instr} {s t : State} {e : Error} (h : exec i s = .next t) (he : t.delivered = .error e)
include h he

/-- An error that an instruction returns was raised by it for the error's cause. -/
theorem raised_of_exec_next_error : t = s.raise e ∧ ErrorCause i s e := by
  obtain hsuccess | ⟨e', rfl, hcause⟩ := exec_next_cases h
  · rw [he] at hsuccess
    exact hsuccess.elim
  · cases he
    exact ⟨rfl, hcause⟩

theorem errorCause_and_status_of_exec_next_error : ErrorCause i s e ∧ t.ports.status = errorCode e := by
  obtain ⟨rfl, hcause⟩ := raised_of_exec_next_error h he
  exact ⟨hcause, raise_ports_status s e⟩

end Raised

/-- An instruction that completes without an error has status 0 (R110). -/
theorem exec_next_status_of_no_error {i : Instr} {s t : State} (h : exec i s = .next t)
    (hne : ∀ e, t.delivered ≠ .error e) : t.ports.status = 0#2 := by
  obtain hsuccess | ⟨e, rfl, -⟩ := exec_next_cases h
  · exact drivePorts_status_of_success _ hsuccess
  · exact absurd (raise_delivered s e) (hne e)

/-- Settles O30: each error is raised for its cause with its code (`errorCause_and_status_of_exec_next_error`), and the
rest is success. -/
theorem eachErrorHasItsOperationAndCode : Obligations.EachErrorHasItsOperationAndCode := fun _ _ _ h =>
  ⟨errorCause_and_status_of_exec_next_error h, errorCause_and_status_of_exec_next_error h,
    errorCause_and_status_of_exec_next_error h, exec_next_status_of_no_error h⟩

/-- Settles O29: an error is raised and does nothing else (`raised_of_exec_next_error`), so the next operation is handed
the same memory and buffer (`exec_sameResult_of_sameHanded`). -/
theorem errorsLeaveNoTrace : Obligations.ErrorsLeaveNoTrace := by
  intro i s t e h he
  obtain ⟨rfl, -⟩ := raised_of_exec_next_error h he
  exact ⟨rfl, fun j => exec_sameResult_of_sameHanded j (sameHanded_of_mem_buf (raise_mem s e) (raise_buf s e))⟩

/-- Settles O20: the cause of TruncatedBuffer is a count below 17, and there `DEC` raises it (`execDec_of_lt`). -/
theorem truncatedBufferExactlyBelowSeventeen : Obligations.TruncatedBufferExactlyBelowSeventeen := by
  refine fun n s => ⟨fun ⟨t, h, he⟩ => ?_, fun hn => ?_⟩
  · obtain ⟨-, n', hdec, hlt⟩ := raised_of_exec_next_error h he
    cases hdec
    exact Nat.le_of_lt_succ hlt
  · exact ⟨_, execDec_of_lt (Nat.lt_succ_of_le hn) s, raise_delivered s _⟩

/-- Settles O21: the cause of InvalidBooleanEncoding is a reserved byte at offset 16, which is the held one, and there
`DEC` raises it (`execDec_of_reserved_flag`). -/
theorem invalidBooleanExactlyOnReservedFlags : Obligations.InvalidBooleanExactlyOnReservedFlags := by
  refine ⟨fun n s B hB => ⟨fun ⟨t, h, he⟩ => ?_, fun ⟨hn, hflag⟩ => ?_⟩, length_filter_byte_ge 0x02#8⟩
  · obtain ⟨-, n', fe, hdec, hn, hfe, hreserved⟩ := raised_of_exec_next_error h he
    cases hdec
    cases hfe.symm.trans (hB 16 hn)
    exact ⟨hn, hreserved⟩
  · exact ⟨_, execDec_of_reserved_flag hn hB hflag, raise_delivered s _⟩

/-! Steps that present no operation (R20, R120). -/

theorem idle_ports (s : State) : s.idle.ports = Config.freeOutputs s.idle.draw := by
  rw [ports_eq (idle_delivered s), drivePorts_nothing]

/-- Settles O38: with nothing presented the step idles (`step_idle`), and a caller's store only writes its bytes
(`step_callerStores`). -/
theorem stepsWithoutAnOperation : Obligations.StepsWithoutAnOperation := by
  refine fun s => ⟨fun hpending => ⟨_, step_idle hpending, rfl, idle_ports s⟩, fun a bs rest hpending => ?_⟩
  refine ⟨_, step_callerStores hpending, rfl, rfl, rfl, fun k hk => ?_, fun x hx => ?_⟩
  · rw [callerStore_mem, Memory.read_writeBytes_inside _ a bs hk]
  · rw [callerStore_mem, Memory.read_writeBytes_outside _ bs hx, advance_mem]

end Sys2Proof.Machine

namespace Sys2Proof.Machine

/-! When an operation completes, and when `DEC` refuses its count (R41, R71, R134, R139). -/

/-- A declared byte that is not present makes the count untruthful (R134). -/
theorem not_countTruthful_of_handedByte_eq_none {s : State} {n k : Nat} (hk : k < n) (h : s.handedByte k = none) :
    ¬s.CountTruthful n := fun hcount => by
  simpa [h] using hcount k hk

/-- `DEC` refuses an untruthful count of 17 or more (R134). -/
theorem execDec_of_not_countTruthful {s : State} {n : Nat} (hn : 17 ≤ n) (hcount : ¬s.CountTruthful n) :
    execDec n s = .refused .countBeyondPresent := by
  obtain ⟨hlt, -⟩ | ⟨-, htruthful, -⟩ | ⟨-, -, hrefused⟩ := execDec_cases n s
  · omega
  · exact absurd htruthful hcount
  · exact hrefused

/-- Settles O24: the missing byte makes the count untruthful (`not_countTruthful_of_handedByte_eq_none`), and `DEC`
refuses such a count from 17 on (`execDec_of_not_countTruthful`). -/
theorem decRefusesAnUntruthfulCount : Obligations.DecRefusesAnUntruthfulCount := fun _ _ _ hn hk hnone =>
  execDec_of_not_countTruthful hn (not_countTruthful_of_handedByte_eq_none hk hnone)

section Completes

variable (s : State)

theorem exec_openc_completes_iff (tag : BitVec 4) : (∃ t, exec (.openc tag) s = .next t) ↔ tag ≤ 9#4 := by
  refine ⟨fun ⟨t, h⟩ => ?_, fun htag => ?_⟩
  · by_contra hgt
    cases (exec_openc_of_ge (tag_ge_iff.2 (BitVec.not_le.1 hgt)) s).symm.trans h
  · obtain ⟨op, rfl⟩ := exists_opcode_of_tag_le htag
    exact ⟨_, exec_openc_opcodeTag op s⟩

theorem exec_enc_completes_iff (r : StatusRecord) : (∃ t, exec (.enc r) s = .next t) ↔ 17 ≤ s.buf.size :=
  ⟨fun ⟨_, h⟩ => (exec_enc_next h).1, exec_enc_of_room r⟩

theorem exec_dec_completes_iff (n : Nat) : (∃ t, exec (.dec n) s = .next t) ↔ (17 ≤ n → s.CountTruthful n) := by
  refine ⟨fun ⟨t, h⟩ hn => ?_, fun hcontract => ?_⟩
  · by_contra hcount
    cases (execDec_of_not_countTruthful hn hcount).symm.trans h
  · by_cases hn : n < 17
    · exact ⟨_, execDec_of_lt hn s⟩
    · have hn := Nat.not_lt.1 hn
      obtain ⟨B, hB⟩ := holds_of_truthful (hcontract hn)
      exact ⟨_, execDec_of_holds hn hB⟩

/-- Of `OPENC` the contract asks for an opcode's tag (R71). -/
theorem callerKeepsContract_openc (tag : BitVec 4) : CallerKeepsContract (.openc tag) s ↔ tag ≤ 9#4 :=
  ⟨fun ⟨hwf, _, _⟩ => wellFormed_openc.1 hwf, fun htag => ⟨wellFormed_openc.2 htag, nofun, nofun⟩⟩

/-- Of `ENC` the contract asks for room (R41). -/
theorem callerKeepsContract_enc (r : StatusRecord) : CallerKeepsContract (.enc r) s ↔ 17 ≤ s.buf.size :=
  ⟨fun ⟨_, henc, _⟩ => henc r rfl, fun hroom => ⟨rfl, fun _ _ => hroom, nofun⟩⟩

/-- Of `DEC` the contract asks for a truthful count from 17 on (R134). -/
theorem callerKeepsContract_dec (n : Nat) : CallerKeepsContract (.dec n) s ↔ (17 ≤ n → s.CountTruthful n) :=
  ⟨fun ⟨_, _, hdec⟩ => hdec n rfl, fun hcount => ⟨rfl, nofun, fun _ hn => Instr.dec.inj hn ▸ hcount⟩⟩

end Completes

/-- Settles O33: `OPENC`, `ENC` and `DEC` each complete exactly on what the contract asks of them, and the ten commands
and `OPDEC`, of which it asks nothing, always complete. -/
theorem operationsCompleteExactlyUnderContract : Obligations.OperationsCompleteExactlyUnderContract := by
  intro i s
  cases i with
  | openc tag => exact (exec_openc_completes_iff s tag).trans (callerKeepsContract_openc s tag).symm
  | enc r => exact (exec_enc_completes_iff s r).trans (callerKeepsContract_enc s r).symm
  | dec n => exact (exec_dec_completes_iff s n).trans (callerKeepsContract_dec s n).symm
  | _ => exact ⟨fun _ => ⟨rfl, nofun, nofun⟩, fun _ => ⟨_, rfl⟩⟩

/-! Reset (R22, R130). -/

theorem resetBlock_ports (s : State) : s.resetBlock.ports = Config.freeOutputs s.resetBlock.draw := by
  rw [ports_eq (resetBlock_delivered s), drivePorts_nothing]

/-- Settles O37: the reset step (`step_reset`) leaves memory and buffer as they were, so every instruction is handed the
same bytes as before (`exec_sameResult_of_sameHanded`). -/
theorem resetChangesNothingAnOperationSees : Obligations.ResetChangesNothingAnOperationSees := by
  intro s rest hpending
  refine ⟨(s.advance rest).resetBlock, step_reset hpending, rfl, resetBlock_ports _, fun i => ?_⟩
  exact exec_sameResult_of_sameHanded i (sameHanded_of_mem_buf rfl rfl)

end Sys2Proof.Machine
